-- ==== Sys2Proof/Word.lean ====
section
/-! DEFINITION. The word types of the machine (00_scope.md R10; 10_state.md R21). -/

namespace Sys2Proof

/-- An instruction word: 32 bits, bit 31 most significant (R10, R58). -/
abbrev Word := BitVec 32

/-- A byte of instruction memory (R45). -/
abbrev Byte := BitVec 8

/-- A 64-bit unsigned byte address (R21, R45). -/
abbrev Addr := BitVec 64

end Sys2Proof
end

