-- ==== Sys2Proof/Machine/FPTypes.lean ====
section
/-! DEFINITION. The floating-point types of the group: rounding modes (R90), element formats (R91), exception sets
(R102), operand classes (R93). -/

namespace Sys2Proof.Machine

/-- The enumeration `FPRounding`, the five values the source names (R90). -/
inductive FPRounding where
  /-- to nearest, with ties to even -/
  | tieEven
  /-- to nearest, with ties away from zero -/
  | tieAway
  /-- toward minus Infinity -/
  | negInf
  /-- toward plus Infinity -/
  | posInf
  /-- toward zero -/
  | zero
  deriving DecidableEq, Repr

/-- The three floating-point formats an element can have (R91). -/
inductive Fmt where
  /-- binary16 -/
  | half
  /-- binary32 -/
  | single
  /-- binary64 -/
  | double
  deriving DecidableEq, Repr

/-- `esize`, the width N of the format in bits (R63, R91). -/
def Fmt.bits : Fmt → Nat
  | .half => 16
  | .single => 32
  | .double => 64

/-- `E`, the width of the biased exponent field (R91). -/
def Fmt.expBits : Fmt → Nat
  | .half => 5
  | .single => 8
  | .double => 11

/-- `F`, the width of the fraction field (R91). -/
def Fmt.fracBits : Fmt → Nat
  | .half => 10
  | .single => 23
  | .double => 52

/-- The exponent bias (R91). -/
def Fmt.bias : Fmt → Nat
  | .half => 15
  | .single => 127
  | .double => 1023

/-- `2^E - 1`, the exponent field of infinities and NaNs (R91). -/
def Fmt.expMax (f : Fmt) : Nat := 2 ^ f.expBits - 1

/-- A set of floating-point exceptions: the three that `FPRoundInt` can signal (R92, R102). -/
structure FPExcSet where
  /-- Invalid Operation -/
  invalidOp : Bool := false
  /-- Inexact -/
  inexact : Bool := false
  /-- Input Denormal -/
  inputDenorm : Bool := false
  deriving DecidableEq, Repr, Inhabited

/-- The empty set of exceptions. -/
def FPExcSet.none : FPExcSet := {}

/-- Union of two sets of exceptions (R105: flags accumulate over the active elements). -/
def FPExcSet.union (a b : FPExcSet) : FPExcSet where
  invalidOp := a.invalidOp || b.invalidOp
  inexact := a.inexact || b.inexact
  inputDenorm := a.inputDenorm || b.inputDenorm

/-- Intersection of two sets of exceptions. -/
def FPExcSet.inter (a b : FPExcSet) : FPExcSet where
  invalidOp := a.invalidOp && b.invalidOp
  inexact := a.inexact && b.inexact
  inputDenorm := a.inputDenorm && b.inputDenorm

/-- No exception is in the set. -/
def FPExcSet.isEmpty (a : FPExcSet) : Bool := !(a.invalidOp || a.inexact || a.inputDenorm)

/-- Every exception of `a` is in `b`. -/
def FPExcSet.subset (a b : FPExcSet) : Bool :=
  (!a.invalidOp || b.invalidOp) && (!a.inexact || b.inexact) && (!a.inputDenorm || b.inputDenorm)

/-- The classes into which `FPRoundInt` sorts an operand (R93). -/
inductive FPClass where
  | signallingNaN
  | quietNaN
  | infinity
  /-- a zero, or a denormal that is flushed (R95); `flushed` says which -/
  | zero (flushed : Bool)
  /-- a normal number, or a denormal that is not flushed -/
  | nonzero
  deriving DecidableEq, Repr

end Sys2Proof.Machine
end

