-- ==== Sys2Proof/Config.lean ====
section
/-! DEFINITION. The parameters of the model, constant over a run (00_scope.md R7 to R9; 92_eei_decisions.md, "Parameters
of the model, collected"), and the free values. -/

namespace Sys2Proof

/-- The kind of access trap `CheckSVEEnabled()` can ask for (R127). The model carries it and interprets it nowhere
(R137). The four named kinds are those R127 tells of; `other` keeps the parameter open. -/
inductive TrapKind where
  /-- SVE access trap (R127 (c)) -/
  | sve
  /-- SME access trap (R127 (a)) -/
  | sme
  /-- SME access trap whose syndrome says that streaming mode is required (R127 (b)) -/
  | smeStreamingRequired
  /-- floating-point access trap (R127 (c)) -/
  | fp
  /-- any other answer of the parameter -/
  | other (code : Nat)
  deriving DecidableEq, Repr

/-- The answer of the parameter `SVEEnabledCheck` (R9, R127, D6): constant over a run, since nothing in scope changes the
controls it reads. -/
inductive SVECheck where
  | ok
  | trap (kind : TrapKind)
  deriving DecidableEq, Repr

/-- The configuration record. It stands in `State` as the field `cfg`, and no step changes it (log 1). -/
structure Config where
  /-- `VL`, the vector length in bits (R7, R24, D3) -/
  vl : Nat
  /-- `IsFeatureImplemented(FEAT_SVE)` (R8) -/
  haveSVE : Bool
  /-- `IsFeatureImplemented(FEAT_SME)` (R8) -/
  haveSME : Bool
  /-- `IsFeatureImplemented(FEAT_SVE2p2)` (R8) -/
  haveSVE2p2 : Bool
  /-- `IsFeatureImplemented(FEAT_SME2p2)` (R8) -/
  haveSME2p2 : Bool
  /-- `HaveAFP`: `FPCR.AH` and `FPCR.FIZ` exist (R9, D13) -/
  haveAFP : Bool
  /-- `FPTrapSupport`: the trap-enable bits of `FPCR` can be set (R9, D8) -/
  fpTrapSupport : Bool
  /-- what `CheckSVEEnabled()` answers (R127, D6) -/
  sveCheck : SVECheck
  deriving DecidableEq, Repr

/-- DESIGN CHOICE (log 1), unsafe for a claim about `State.reset` alone: the configuration at reset. `sveCheck = ok` and
`haveAFP = false` are the defaults of D6 and D13; the others are the defaults of 95_test_vectors.md. -/
def Config.default : Config where
  vl := 128
  haveSVE := true
  haveSME := true
  haveSVE2p2 := true
  haveSME2p2 := true
  haveAFP := false
  fpTrapSupport := false
  sveCheck := .ok

/-- The vector length is one the launch premise R145 (c) admits: a positive multiple of 128 not above 2048. -/
def Config.vlLegal (c : Config) : Bool := c.vl % 128 == 0 && 128 ≤ c.vl && c.vl ≤ 2048

/-- The vector length is one the source's own pseudocode is well formed for: a positive multiple of 64 (R7). -/
def Config.vlUsable (c : Config) : Bool := c.vl % 64 == 0 && 0 < c.vl

/-- FREE VALUE (log 11), safe: the set of exceptions a trapped floating-point exception reports, before it is brought
within the bound of R129. Nothing constrains it. Its argument is `State.freeSeed`. -/
opaque Config.freeTrapSet : Nat → Machine.FPExcSet

/-- FREE VALUE (log 11), safe: which of the bits IOC, IXC, IDC a trapped floating-point exception sets in `FPSR` (R129).
Nothing constrains it. Its argument is `State.freeSeed`. -/
opaque Config.freeTrapFlags : Nat → Machine.FPExcSet

end Sys2Proof
end

