-- ==== Sys2Proof/Machine/State.lean ====
section
/-! DEFINITION. The state of the machine as plain data, the reasons a step can stop, and the state after reset
(10_state.md R20 to R43; 60_exceptions.md R124 to R138). -/

namespace Sys2Proof.Machine

/-- Instruction memory: the listed (address, byte) pairs, addresses strictly rising (`Memory.wf`). An unlisted address
does not exist and reads as no value (R50, log 5). It holds the program text and nothing else (R45). -/
abbrev Memory := List Host.Cell

/-- Why the machine stops with a fault. A fault is terminal (R134, D7); it carries its name, the address of the
instruction and the word (R126). Every fault is safe: the hardware takes the exception and goes on at a handler, of
which the model claims nothing. -/
inductive Fault where
  /-- Raised by decode: the features of the class are absent (R71) or `size = '00'` (R70); R125. No state changes. -/
  | undefinedInstruction (pc : Addr) (w : Word)
  /-- Raised by `CheckSVEEnabled()` when the parameter answers with a trap (R127). No state changes. -/
  | sveAccessTrap (kind : TrapKind) (pc : Addr) (w : Word)
  /-- Raised when an active element signals a floating-point exception whose trap-enable bit is 1 (R129). `set` is the
  reported set and `fpsr` the value of `FPSR` at the fault, both free within R129's bound; `Z[d]` and `pc` unchanged. -/
  | fpTrapped (set : FPExcSet) (fpsr : BitVec 64) (pc : Addr) (w : Word)
  deriving DecidableEq, Repr

/-- Why a step has no meaning. Every refusal is safe: nothing can be proved of what follows. -/
inductive Refusal where
  /-- An arm of `exec` whose instruction has no meaning yet; no arm is one. -/
  | notModelled (mnemonic : String)
  /-- Raised by `step`: the word matches none of the 14 patterns (R74, D9), MOVPRFX among them (R148). -/
  | notInGroup (pc : Addr) (w : Word)
  /-- Raised by `step`: the word has the group's layout with the selector value 101 (R73). -/
  | selectorNotDescribed (pc : Addr) (w : Word)
  /-- Raised by `step`: `pc` is the address just after the text; the run has ended NORMALLY and the state is final
  (R146, D16; log 7). -/
  | endOfRun (pc : Addr)
  /-- Raised by `step`: `pc` is outside the text and not its end; no run gets there (R50, R146). -/
  | fetchOutsideText (pc : Addr)
  /-- Raised by `step`: `pc` is not a multiple of 4; no run gets there (R49; log 8). -/
  | pcMisaligned (pc : Addr)
  deriving DecidableEq, Repr

/-- An exception an instruction can take (R124), before it is recorded. -/
inductive Exc where
  | undefinedInstruction
  | sveAccessTrap (kind : TrapKind)
  /-- `enabled`: the exceptions that active elements signalled and whose trap-enable bits are 1 -/
  | fpTrapped (enabled : FPExcSet)
  deriving DecidableEq, Repr

/-- The machine's state. -/
structure State where
  /-- the parameters of the run, which no step changes (R7 to R9; log 1) -/
  cfg : Config
  /-- the address of the instruction being executed (R21) -/
  pc : Addr
  /-- the scalable vector registers `Z0` to `Z31`, each exactly `VL` bits (R23, R25) -/
  z : Vector (BitVec cfg.vl) 32
  /-- the scalable predicate registers `P0` to `P15`, each `VL DIV 8` bits (R24, R26, R42; log 20) -/
  p : Vector (BitVec (cfg.vl / 8)) 16
  /-- the floating-point control register as stored; read through `State.fpcrValue` (R29) -/
  fpcr : BitVec 64
  /-- the floating-point status register (R33) -/
  fpsr : BitVec 64
  /-- instruction memory, the program text (R45) -/
  mem : Memory
  /-- THE MODEL'S OWN FIELD, not the spec's: the argument of the free values (log 12) -/
  freeSeed : Nat
  deriving DecidableEq, Repr

/-- The state right after reset. The spec leaves every register unspecified (R42, R142); each value here is one the log
names: the configuration (log 1), `Z` and `P` (log 2), `FPCR` and `FPSR` (log 3), `pc` (log 4), no program (log 5, log 6),
the seed of the free values (log 12). DESIGN CHOICE, unsafe for a claim that rests on them. -/
def State.reset : State where
  cfg := Config.default
  pc := 0x1000#64
  z := Vector.replicate 32 0
  p := Vector.replicate 16 0
  fpcr := 0
  fpsr := 0
  mem := []
  freeSeed := 0

end Sys2Proof.Machine
end

