-- ==== Sys2Proof/Machine/Flags.lean ====
section
/-! DEFINITION. The fields of `FPCR` and `FPSR`, the rounding mode, the cumulative flags and the trap enables
(10_state.md R28 to R35; 40_frint_operation.md R102). The layout is general knowledge of the spec (log 9, UNVERIFIED). -/

namespace Sys2Proof.Machine

/-! ## FPCR (R29) -/

/-- `FPCR.DN`, bit 25: default NaN. -/
def fpcrDN (v : BitVec 64) : Bool := v.getLsbD 25

/-- `FPCR.FZ`, bit 24: flush-to-zero for single and double precision. -/
def fpcrFZ (v : BitVec 64) : Bool := v.getLsbD 24

/-- `FPCR.RMode`, bits 23:22: rounding mode. -/
def fpcrRMode (v : BitVec 64) : BitVec 2 := v.extractLsb' 22 2

/-- `FPCR.FZ16`, bit 19: flush-to-zero for half precision. -/
def fpcrFZ16 (v : BitVec 64) : Bool := v.getLsbD 19

/-- `FPCR.IDE`, bit 15: Input Denormal trap enable. -/
def fpcrIDE (v : BitVec 64) : Bool := v.getLsbD 15

/-- `FPCR.IXE`, bit 12: Inexact trap enable. -/
def fpcrIXE (v : BitVec 64) : Bool := v.getLsbD 12

/-- `FPCR.IOE`, bit 8: Invalid Operation trap enable. -/
def fpcrIOE (v : BitVec 64) : Bool := v.getLsbD 8

/-- `FPCR.AH`, bit 1: alternate handling. -/
def fpcrAH (v : BitVec 64) : Bool := v.getLsbD 1

/-- `FPCR.FIZ`, bit 0: flush inputs to zero. -/
def fpcrFIZ (v : BitVec 64) : Bool := v.getLsbD 0

/-- The bits of `FPCR` that are fields on every implementation: AHP 26, DN 25, FZ 24, RMode 23:22, Stride 21:20, FZ16 19,
Len 18:16, EBF 13, NEP 2 (R29). DESIGN CHOICE (log 29), safe: 93_implementation_defined.md U13 premises NEP zero without
`HaveAFP`, while R29 and D13 name only bits 1 and 0; NEP counts as a field on every implementation. No rule of the group
reads it. -/
def fpcrPlainBits : BitVec 64 := 0x07FF2004#64

/-- The six trap-enable bits 15, 12, 11, 10, 9, 8 (R29, C5). -/
def fpcrTrapBits : BitVec 64 := 0x9F00#64

/-- `AH` and `FIZ`, bits 1 and 0, which exist only if `HaveAFP` (R29). -/
def fpcrAFPBits : BitVec 64 := 0x3#64

/-- The bits of `FPCR` that do not read as zero under a configuration (R29). -/
def fpcrLiveBits (c : Config) : BitVec 64 :=
  fpcrPlainBits ||| (if c.fpTrapSupport then fpcrTrapBits else 0) ||| (if c.haveAFP then fpcrAFPBits else 0)

/-- `FPCR()`: the value a read of `FPCR` returns. Reserved bits read as zero, the trap enables do without `FPTrapSupport`,
`AH` and `FIZ` do without `HaveAFP` (R29). The ONE read of the register. -/
def State.fpcrValue (s : State) : BitVec 64 := s.fpcr &&& fpcrLiveBits s.cfg

/-- `FPRoundingMode(fpcr)`: the rounding mode `fpcr.RMode` selects (R31). -/
def fpRoundingMode (v : BitVec 64) : FPRounding :=
  if fpcrRMode v = 0#2 then .tieEven
  else if fpcrRMode v = 1#2 then .posInf
  else if fpcrRMode v = 2#2 then .negInf
  else .zero

/-! ## Exceptions, cumulative flags and trap enables (R33, R34, R102) -/

/-- The trap-enable bits of the three exceptions, `IOE`, `IXE`, `IDE` (R102). -/
def enabledTraps (v : BitVec 64) : FPExcSet where
  invalidOp := fpcrIOE v
  inexact := fpcrIXE v
  inputDenorm := fpcrIDE v

/-- The cumulative bits of a set of exceptions: `IOC` bit 0, `IXC` bit 4, `IDC` bit 7 (R33, R102). -/
def FPExcSet.fpsrBits (a : FPExcSet) : BitVec 64 :=
  (if a.invalidOp then 0x1#64 else 0) ||| (if a.inexact then 0x10#64 else 0) ||| (if a.inputDenorm then 0x80#64 else 0)

/-- The three bits of `FPSR` the group can set: `IOC`, `IXC`, `IDC` (R34). -/
def fpsrGroupBits : BitVec 64 := 0x91#64

/-- The fields of `FPSR`: N Z C V 31:28, QC 27, IDC 7, IXC 4, UFC 3, OFC 2, DZC 1, IOC 0; the rest is RES0 (R33). DESIGN
CHOICE (log 28), safe: R33 has bits 31:28 RES0 where AArch32 is not implemented, and the spec has no parameter for that;
they count as fields always, so they are not premised zero. -/
def fpsrLiveBits : BitVec 64 := 0xF800009F#64

/-- `FPSR` after a set of exceptions is accumulated into it: `FPSR OR flags` (R35). -/
def fpsrAccumulate (fpsr : BitVec 64) (a : FPExcSet) : BitVec 64 := fpsr ||| a.fpsrBits

end Sys2Proof.Machine
end

