-- ==== Sys2Proof/Syntax.lean ====
section
/-! DEFINITION. The instructions: one constructor per row of spec/opcode_table.json (R57, R110 to R123). -/

namespace Sys2Proof

/-- The number of a scalable vector register, `Z0` to `Z31` (R23). -/
abbrev ZReg := Fin 32

/-- The number of a governing predicate register, `P0` to `P7` (R26). -/
abbrev PReg := Fin 8

/-- The two-bit field `size` (R62, R77). -/
inductive Size where
  /-- `'00'`: undefined in every class (R70) -/
  | size00
  /-- `'01'`: 16-bit elements -/
  | half
  /-- `'10'`: 32-bit elements -/
  | single
  /-- `'11'`: 64-bit elements -/
  | double
  deriving DecidableEq, Repr

/-- The four operand fields, the same in both formats (R62). -/
structure Operands where
  /-- element size, bits 23:22 -/
  size : Size
  /-- governing predicate `Pg`, bits 12:10 -/
  pg : PReg
  /-- source vector `Zn`, bits 9:5 -/
  zn : ZReg
  /-- destination vector `Zd`, bits 4:0 -/
  zd : ZReg
  deriving DecidableEq, Repr

/-- The 14 instructions, in the source's class order (R57). `M` is the merging form, `Z` the zeroing form. -/
inductive Instr where
  /-- Current mode signalling inexact, merging (R110) -/
  | frintxM (o : Operands)
  /-- Current mode signalling inexact, zeroing (R111) -/
  | frintxZ (o : Operands)
  /-- Current mode, merging (R112) -/
  | frintiM (o : Operands)
  /-- Current mode, zeroing (R113) -/
  | frintiZ (o : Operands)
  /-- Nearest with ties to away, merging (R114) -/
  | frintaM (o : Operands)
  /-- Nearest with ties to away, zeroing (R115) -/
  | frintaZ (o : Operands)
  /-- Nearest with ties to even, merging (R116) -/
  | frintnM (o : Operands)
  /-- Nearest with ties to even, zeroing (R117) -/
  | frintnZ (o : Operands)
  /-- Toward zero, merging (R118) -/
  | frintzM (o : Operands)
  /-- Toward zero, zeroing (R119) -/
  | frintzZ (o : Operands)
  /-- Toward minus infinity, merging (R120) -/
  | frintmM (o : Operands)
  /-- Toward minus infinity, zeroing (R121) -/
  | frintmZ (o : Operands)
  /-- Toward plus infinity, merging (R122) -/
  | frintpM (o : Operands)
  /-- Toward plus infinity, zeroing (R123) -/
  | frintpZ (o : Operands)
  deriving DecidableEq, Repr

/-- The operand fields of an instruction (R64). -/
def Instr.operands : Instr → Operands
  | .frintxM o => o
  | .frintxZ o => o
  | .frintiM o => o
  | .frintiZ o => o
  | .frintaM o => o
  | .frintaZ o => o
  | .frintnM o => o
  | .frintnZ o => o
  | .frintzM o => o
  | .frintzZ o => o
  | .frintmM o => o
  | .frintmZ o => o
  | .frintpM o => o
  | .frintpZ o => o

/-- The instruction is one of the seven merging encodings (R65, column `merging`). -/
def Instr.isMerging : Instr → Bool
  | .frintxM _ => true
  | .frintxZ _ => false
  | .frintiM _ => true
  | .frintiZ _ => false
  | .frintaM _ => true
  | .frintaZ _ => false
  | .frintnM _ => true
  | .frintnZ _ => false
  | .frintzM _ => true
  | .frintzZ _ => false
  | .frintmM _ => true
  | .frintmZ _ => false
  | .frintpM _ => true
  | .frintpZ _ => false

end Sys2Proof
end

