-- ==== Sys2Proof/Machine/Operands.lean ====
section
/-! DEFINITION. The operand forms: element sizes (R63), elements of a vector (R11, R48), active elements of a predicate
(R84, R85). -/

namespace Sys2Proof.Machine

/-- The element format of a `size` field, `esize = 8 << UInt(size)`; none for `'00'` (R63, R70). -/
def sizeFmt : Size → Option Fmt
  | .size00 => none
  | .half => some .half
  | .single => some .single
  | .double => some .double

/-- `elements = VL DIV esize` (R82). -/
def elementCount (vl : Nat) (f : Fmt) : Nat := vl / f.bits

/-- `x[e*:esize]`, element `e` of a vector: bits `(e+1)*esize-1` down to `e*esize` (R11). -/
def element {n : Nat} (f : Fmt) (x : BitVec n) (e : Nat) : BitVec f.bits := x.extractLsb' (e * f.bits) f.bits

/-- `x[e*:esize] = v`: exactly the bits of element `e` are replaced (R11). -/
def setElement {n : Nat} (f : Fmt) (x : BitVec n) (e : Nat) (v : BitVec f.bits) : BitVec n :=
  (x &&& ~~~((BitVec.allOnes f.bits).setWidth n <<< (e * f.bits))) ||| (v.setWidth n <<< (e * f.bits))

/-- `ActivePredicateElement{PL}(mask, e, esize)`: bit `e * (esize DIV 8)` of the mask is 1; the element's other predicate
bits do not matter (R84). -/
def activeElement {n : Nat} (mask : BitVec n) (e : Nat) (f : Fmt) : Bool := mask.getLsbD (e * (f.bits / 8))

/-- Some element below `count` is active. -/
def anyActiveBelow {n : Nat} (mask : BitVec n) (f : Fmt) : Nat → Bool
  | 0 => false
  | e + 1 => anyActiveBelow mask f e || activeElement mask e f

/-- `AnyActiveElement{PL}(mask, esize)`, for a vector of `vl` bits (R85). -/
def anyActiveElement {n : Nat} (vl : Nat) (mask : BitVec n) (f : Fmt) : Bool := anyActiveBelow mask f (elementCount vl f)

end Sys2Proof.Machine
end

