-- ==== Sys2Proof/Machine/FPRound.lean ====
section
/-! DEFINITION. `FPRoundInt`: its type as a configuration function (D12), the reference instance written from the
real-number steps (40_frint_operation.md R91 to R101), and the bit-level form (R99). The rules are general knowledge of
the spec (log 10, UNVERIFIED). Everything is exact: integers and a power-of-two denominator, no rounding inside (R96). -/

namespace Sys2Proof.Machine

/-- The configuration function `FPRoundInt` (D12, R92), as the pure pair of a value and a set of signalled exceptions.
The arguments: format, element, value of `FPCR`, rounding, `exact`. -/
structure FPRoundIntFn where
  value : (f : Fmt) → BitVec f.bits → BitVec 64 → FPRounding → Bool → BitVec f.bits
  flags : (f : Fmt) → BitVec f.bits → BitVec 64 → FPRounding → Bool → FPExcSet

/-! ## Fields of a datum (R91) -/

/-- The sign bit. -/
def fpSign (f : Fmt) (op : BitVec f.bits) : Bool := op.getLsbD (f.bits - 1)

/-- `e = UInt(exponent field)`. -/
def fpExp (f : Fmt) (op : BitVec f.bits) : Nat := op.toNat / 2 ^ f.fracBits % 2 ^ f.expBits

/-- `f = UInt(fraction field)`. -/
def fpFrac (f : Fmt) (op : BitVec f.bits) : Nat := op.toNat % 2 ^ f.fracBits

/-- The datum with the given sign, exponent field and fraction field. -/
def fpPack (f : Fmt) (sign : Bool) (e frac : Nat) : BitVec f.bits :=
  BitVec.ofNat f.bits ((if sign then 2 ^ (f.bits - 1) else 0) + e * 2 ^ f.fracBits + frac)

/-- A zero of the given sign: `s : Zeros{N-1}` (R94). -/
def fpZero (f : Fmt) (sign : Bool) : BitVec f.bits := fpPack f sign 0 0

/-- `+1.0` or `-1.0` (R99). -/
def fpOne (f : Fmt) (sign : Bool) : BitVec f.bits := fpPack f sign f.bias 0

/-! ## Denormal inputs and classification (R93, R95) -/

/-- `op` is a denormal (R91). -/
def fpIsDenormal (f : Fmt) (op : BitVec f.bits) : Bool := fpExp f op == 0 && fpFrac f op != 0

/-- `fz`: flush-to-zero applies to single and double precision inputs (R95). `AH` reads as 0 without `HaveAFP` (R29). -/
def fpFlushFZ (fpcr : BitVec 64) : Bool := fpcrFZ fpcr && !fpcrAH fpcr

/-- A denormal input of this format is flushed (R95). -/
def fpFlushes (f : Fmt) (fpcr : BitVec 64) : Bool :=
  match f with
  | .half => fpcrFZ16 fpcr
  | .single => fpFlushFZ fpcr || fpcrFIZ fpcr
  | .double => fpFlushFZ fpcr || fpcrFIZ fpcr

/-- A flush of this format signals Input Denormal: never for half precision; for the others when `fz` holds, which has
`AH` not 1 (R95). -/
def fpFlushSignals (f : Fmt) (fpcr : BitVec 64) : Bool :=
  match f with
  | .half => false
  | .single => fpFlushFZ fpcr
  | .double => fpFlushFZ fpcr

/-- Step 1: the class of an operand (R91, R93). -/
def fpClassify (f : Fmt) (op : BitVec f.bits) (fpcr : BitVec 64) : FPClass :=
  if fpExp f op = f.expMax then
    if fpFrac f op = 0 then .infinity
    else if op.getLsbD (f.fracBits - 1) then .quietNaN else .signallingNaN
  else if fpExp f op = 0 ∧ fpFrac f op = 0 then .zero false
  else if fpIsDenormal f op && fpFlushes f fpcr then .zero true
  else .nonzero

/-! ## NaNs (R100, R101) -/

/-- The default NaN: sign bit `AH` (which reads as 0 without `HaveAFP`), exponent all ones, fraction 1 and then zeros
(R101). -/
def fpDefaultNaN (f : Fmt) (fpcr : BitVec 64) : BitVec f.bits :=
  fpPack f (fpcrAH fpcr) f.expMax (2 ^ (f.fracBits - 1))

/-- `FPProcessNaN`, the value: the operand with fraction bit `F-1` set, or the default NaN if `DN = 1` (R100). A quiet NaN
has the bit set already. -/
def fpProcessNaN (f : Fmt) (op : BitVec f.bits) (fpcr : BitVec 64) : BitVec f.bits :=
  if fpcrDN fpcr then fpDefaultNaN f fpcr else op ||| BitVec.twoPow f.bits (f.fracBits - 1)

/-! ## The real value and its rounding (R91, R96, R97) -/

/-- The integer significand `m` with `|v| = m * 2^(max e 1 - bias - F)` of a finite operand (R91). -/
def fpSignificand (f : Fmt) (op : BitVec f.bits) : Nat :=
  if fpExp f op = 0 then fpFrac f op else 2 ^ f.fracBits + fpFrac f op

/-- The exponent field of a finite operand, a denormal's taken as 1 (R91). -/
def fpEffExp (f : Fmt) (op : BitVec f.bits) : Nat := if fpExp f op = 0 then 1 else fpExp f op

/-- The denominator's exponent: the exact value of a finite operand is `fpNum / 2^fpDenExp` (R91). -/
def fpDenExp (f : Fmt) (op : BitVec f.bits) : Nat := f.bias + f.fracBits - fpEffExp f op

/-- The numerator of the exact value (R91). -/
def fpNum (f : Fmt) (op : BitVec f.bits) : Int :=
  let mag : Int := (fpSignificand f op * 2 ^ (fpEffExp f op - (f.bias + f.fracBits)) : Nat)
  if fpSign f op then -mag else mag

/-- `i = floor(v)`, for `v = num / 2^k`, also for negative `v` (R96). -/
def fpFloor (num : Int) (k : Nat) : Int := num / (2 ^ k : Nat)

/-- `err * 2^k`, for `err = v - i`; a natural number below `2^k` (R96). -/
def fpErr (num : Int) (k : Nat) : Nat := (num % (2 ^ k : Nat)).toNat

/-- `round_up` (R96). `err > 1/2` is `2^k < 2 * err2k`. -/
def fpRoundUp (rounding : FPRounding) (i : Int) (err2k k : Nat) : Bool :=
  match rounding with
  | .tieEven => decide (2 ^ k < 2 * err2k) || (decide (2 * err2k = 2 ^ k) && decide (i % 2 ≠ 0))
  | .posInf => decide (err2k ≠ 0)
  | .negInf => false
  | .zero => decide (err2k ≠ 0) && decide (i < 0)
  | .tieAway => decide (2 ^ k < 2 * err2k) || (decide (2 * err2k = 2 ^ k) && decide (0 ≤ i))

/-- The integer result `r` of rounding `num / 2^k` (R96). -/
def fpRoundToInt (rounding : FPRounding) (num : Int) (k : Nat) : Int :=
  if fpRoundUp rounding (fpFloor num k) (fpErr num k) k then fpFloor num k + 1 else fpFloor num k

/-- Step 4: the datum whose value is exactly the nonzero integer `r` (R97). The leading bit of `|r|` gives the exponent
field; the bits below it, moved into place, the fraction. -/
def fpEncodeInt (f : Fmt) (r : Int) : BitVec f.bits :=
  let n := r.natAbs
  let l := Nat.log2 n
  fpPack f (decide (r < 0)) (f.bias + l)
    ((if l ≤ f.fracBits then n * 2 ^ (f.fracBits - l) else n / 2 ^ (l - f.fracBits)) - 2 ^ f.fracBits)

/-- Steps 3 and 4 for a nonzero operand: a zero of the operand's sign if the integer is 0, else the integer's datum (R96,
R97). -/
def fpRoundNonzero (f : Fmt) (op : BitVec f.bits) (rounding : FPRounding) : BitVec f.bits :=
  let r := fpRoundToInt rounding (fpNum f op) (fpDenExp f op)
  if r = 0 then fpZero f (fpSign f op) else fpEncodeInt f r

/-! ## The reference instance (R92 to R98) -/

/-- `FPRoundInt_value` (R92 to R97). -/
def fpRoundIntValue (f : Fmt) (op : BitVec f.bits) (fpcr : BitVec 64) (rounding : FPRounding) (_exact : Bool) :
    BitVec f.bits :=
  match fpClassify f op fpcr with
  | .signallingNaN => fpProcessNaN f op fpcr
  | .quietNaN => fpProcessNaN f op fpcr
  | .infinity => op
  | .zero _ => fpZero f (fpSign f op)
  | .nonzero => fpRoundNonzero f op rounding

/-- `FPRoundInt_flags` (R94, R95, R98, R100): Invalid Operation for a signalling NaN, Input Denormal for a flush that
signals, Inexact for a nonzero operand that is not an integer when `exact` is TRUE. -/
def fpRoundIntFlags (f : Fmt) (op : BitVec f.bits) (fpcr : BitVec 64) (_rounding : FPRounding) (exact : Bool) :
    FPExcSet :=
  match fpClassify f op fpcr with
  | .signallingNaN => { invalidOp := true }
  | .quietNaN => .none
  | .infinity => .none
  | .zero flushed => { inputDenorm := flushed && fpFlushSignals f fpcr }
  | .nonzero => { inexact := exact && decide (fpErr (fpNum f op) (fpDenExp f op) ≠ 0) }

/-- The instance of `FPRoundInt` the machine runs (D12). -/
def fpRoundInt : FPRoundIntFn where
  value := fpRoundIntValue
  flags := fpRoundIntFlags

/-! ## The bit-level form (R99) -/

/-- `inc` for `0 < |v| < 1` (R99). -/
def fpBitsIncSmall (rounding : FPRounding) (sign isHalf gtHalf : Bool) : Bool :=
  match rounding with
  | .tieEven => gtHalf
  | .tieAway => gtHalf || isHalf
  | .zero => false
  | .posInf => !sign
  | .negInf => sign

/-- `inc` for `1 ≤ |v| < 2^F` (R99). -/
def fpBitsIncLarge (rounding : FPRounding) (sign : Bool) (low half : Nat) (qodd : Bool) : Bool :=
  match rounding with
  | .tieEven => decide (half < low) || (decide (low = half) && qodd)
  | .tieAway => decide (half ≤ low)
  | .zero => false
  | .posInf => decide (low ≠ 0) && !sign
  | .negInf => decide (low ≠ 0) && sign

/-- The value of the bit-level form (R99). -/
def fpRoundIntBitsValue (f : Fmt) (op : BitVec f.bits) (fpcr : BitVec 64) (rounding : FPRounding) : BitVec f.bits :=
  let e := fpExp f op
  let fr := fpFrac f op
  let s := fpSign f op
  if e = f.expMax ∧ fr = 0 then op
  else if e = f.expMax then fpProcessNaN f op fpcr
  else if e = 0 ∧ fr = 0 then fpZero f s
  else if e = 0 ∧ fpFlushes f fpcr then fpZero f s
  else if f.bias + f.fracBits ≤ e then op
  else if e < f.bias then
    if fpBitsIncSmall rounding s (decide (e = f.bias - 1 ∧ fr = 0)) (decide (e = f.bias - 1 ∧ fr ≠ 0)) then fpOne f s
    else fpZero f s
  else
    let k := f.fracBits - (e - f.bias)
    let low := op.toNat % 2 ^ k
    let qodd := if k = f.fracBits then true else op.getLsbD k
    BitVec.ofNat f.bits (op.toNat - low + (if fpBitsIncLarge rounding s low (2 ^ (k - 1)) qodd then 2 ^ k else 0))

/-- The exceptions of the bit-level form (R99, R100). -/
def fpRoundIntBitsFlags (f : Fmt) (op : BitVec f.bits) (fpcr : BitVec 64) (exact : Bool) : FPExcSet :=
  let e := fpExp f op
  let fr := fpFrac f op
  if e = f.expMax ∧ fr = 0 then .none
  else if e = f.expMax then { invalidOp := !op.getLsbD (f.fracBits - 1) }
  else if e = 0 ∧ fr = 0 then .none
  else if e = 0 ∧ fpFlushes f fpcr then { inputDenorm := fpFlushSignals f fpcr }
  else if f.bias + f.fracBits ≤ e then .none
  else if e < f.bias then { inexact := exact }
  else { inexact := exact && decide (op.toNat % 2 ^ (f.fracBits - (e - f.bias)) ≠ 0) }

end Sys2Proof.Machine
end

