-- ==== Sys2Proof/Decode.lean ====
section
/-! DEFINITION. The decoder, total on any bytes and rejecting by name (R58 to R74), the encoder written from the same
tables (R67, R68), and the byte order of instruction words (R47). -/

namespace Sys2Proof

/-- Why bytes are not an instruction of the group. -/
inductive DecodeError where
  /-- fewer than the four bytes an instruction occupies (R58) -/
  | truncated
  /-- the layout of the group with the selector value 101, which the source has no class for (R73) -/
  | selectorNotDescribed
  /-- a word that matches none of the 14 patterns (R74) -/
  | notInGroup
  deriving DecidableEq, Repr

/-! ## Fields (R62) -/

/-- `size` from bits 23:22. -/
def sizeOfBits (b : BitVec 2) : Size :=
  if b = 0#2 then .size00 else if b = 1#2 then .half else if b = 2#2 then .single else .double

/-- The two bits of `size`. -/
def Size.toBits : Size → BitVec 2
  | .size00 => 0#2
  | .half => 1#2
  | .single => 2#2
  | .double => 3#2

/-- The operand fields of a word, the same in both formats (R62, R64). -/
def operandsOf (w : Word) : Operands where
  size := sizeOfBits (w.extractLsb' 22 2)
  pg := (w.extractLsb' 10 3).toFin
  zn := (w.extractLsb' 5 5).toFin
  zd := (w.extractLsb' 0 5).toFin

/-- The operand fields put back in their places (R62). -/
def operandBits (o : Operands) : Word :=
  (o.size.toBits.setWidth 32 <<< 22) ||| (BitVec.ofNat 32 o.pg.val <<< 10) ||| (BitVec.ofNat 32 o.zn.val <<< 5)
    ||| BitVec.ofNat 32 o.zd.val

/-! ## Rows of the opcode table (R67, R68) -/

/-- The mask of every row: the fixed bits 31:24 and 21:13 (R67, R68). -/
def rowMask : Word := 0xFF3FE000#32

/-- The match value of an instruction's row: its word with every operand field zero (R67, R68). -/
def Instr.matchWord : Instr → Word
  | .frintxM _ => 0x6506A000#32
  | .frintxZ _ => 0x6419C000#32
  | .frintiM _ => 0x6507A000#32
  | .frintiZ _ => 0x6419E000#32
  | .frintaM _ => 0x6504A000#32
  | .frintaZ _ => 0x64198000#32
  | .frintnM _ => 0x6500A000#32
  | .frintnZ _ => 0x64188000#32
  | .frintzM _ => 0x6503A000#32
  | .frintzZ _ => 0x6418E000#32
  | .frintmM _ => 0x6502A000#32
  | .frintmZ _ => 0x6418C000#32
  | .frintpM _ => 0x6501A000#32
  | .frintpZ _ => 0x6418A000#32

/-- The row a word belongs to, by the per-class test `w AND 0xFF3FE000 = match` (R67, R68, R69 step 1). The words with
`size = '00'` belong to their row: decoding them ends in Undefined Instruction, which is their meaning (R70). -/
def decodeRow (key : Word) (o : Operands) : Except DecodeError Instr :=
  if key = 0x6500A000#32 then .ok (.frintnM o)
  else if key = 0x6501A000#32 then .ok (.frintpM o)
  else if key = 0x6502A000#32 then .ok (.frintmM o)
  else if key = 0x6503A000#32 then .ok (.frintzM o)
  else if key = 0x6504A000#32 then .ok (.frintaM o)
  else if key = 0x6505A000#32 then .error .selectorNotDescribed
  else if key = 0x6506A000#32 then .ok (.frintxM o)
  else if key = 0x6507A000#32 then .ok (.frintiM o)
  else if key = 0x64188000#32 then .ok (.frintnZ o)
  else if key = 0x6418A000#32 then .ok (.frintpZ o)
  else if key = 0x6418C000#32 then .ok (.frintmZ o)
  else if key = 0x6418E000#32 then .ok (.frintzZ o)
  else if key = 0x64198000#32 then .ok (.frintaZ o)
  else if key = 0x6419A000#32 then .error .selectorNotDescribed
  else if key = 0x6419C000#32 then .ok (.frintxZ o)
  else if key = 0x6419E000#32 then .ok (.frintiZ o)
  else .error .notInGroup

/-- The instruction a 32-bit word is (R69 step 1, R73, R74). -/
def decode (w : Word) : Except DecodeError Instr := decodeRow (w &&& rowMask) (operandsOf w)

/-- The word of an instruction (R67, R68, and the "Encoding" line of each of R110 to R123). -/
def encode (i : Instr) : Word := i.matchWord ||| operandBits i.operands

/-! ## Bytes (R47) -/

/-- Four bytes at increasing addresses as a word: little-endian (R47, D1). -/
def wordOfBytes (b0 b1 b2 b3 : Byte) : Word := b3 ++ b2 ++ b1 ++ b0

/-- The bytes of a word at increasing addresses (R47). -/
def bytesOfWord (w : Word) : List Byte :=
  [w.extractLsb' 0 8, w.extractLsb' 8 8, w.extractLsb' 16 8, w.extractLsb' 24 8]

/-- Decode the instruction at the head of a list of bytes; the rest of the list is returned (R58: every instruction
occupies four bytes). -/
def decodeBytes : List Byte → Except DecodeError (Instr × List Byte)
  | b0 :: b1 :: b2 :: b3 :: rest =>
    match decode (wordOfBytes b0 b1 b2 b3) with
    | .ok i => .ok (i, rest)
    | .error e => .error e
  | _ => .error .truncated

/-- The word that `nbits` bits of value `w` stand for, every further bit zero. -/
def tableWord (nbits w : Nat) : Word := BitVec.ofNat 32 (w % 2 ^ nbits)

/-- The instruction the decoder reads from an instruction whose bits are `w`, numbered as spec/opcode_table.json numbers
them; none where it refuses. -/
def decodeTableWord (nbits w : Nat) : Option Instr :=
  match decodeBytes (bytesOfWord (tableWord nbits w)) with
  | .ok (i, _) => some i
  | .error _ => none

end Sys2Proof
end

