-- ==== Sys2Proof/Machine/Ops.lean ====
section
/-! DEFINITION. The named operations over registers and memory, instruction fetch, and taking an exception (10_state.md
R21 to R26; 20_memory.md R45 to R50; 60_exceptions.md R124 to R134). -/

namespace Sys2Proof.Machine

/-! ## Registers -/

/-- `Z[n]` (R23). -/
def State.readZ (s : State) (n : ZReg) : BitVec s.cfg.vl := s.z.get n

/-- `Z[d] <- v`: all `VL` bits (R25). -/
def State.writeZ (s : State) (d : ZReg) (v : BitVec s.cfg.vl) : State := { s with z := s.z.set d.val v d.isLt }

/-- The predicate register a `Pg` field names: `P0` to `P7` (R26). -/
def governing (g : PReg) : Fin 16 := ⟨g.val, Nat.lt_trans g.isLt (by decide)⟩

/-- `P[g]` (R26). -/
def State.readP (s : State) (g : PReg) : BitVec (s.cfg.vl / 8) := s.p.get (governing g)

/-- `FPSR <- FPSR OR flags` (R35). -/
def State.accumulateFPSR (s : State) (a : FPExcSet) : State := { s with fpsr := fpsrAccumulate s.fpsr a }

/-- `pc <- pc + 4`, modulo 2^64 (R22). -/
def State.advancePc (s : State) : State := { s with pc := s.pc + 4#64 }

/-! ## Features (R2, R71) -/

/-- The features of the merging classes are implemented: `HaveSVE` or `HaveSME`. -/
def State.mergingFeature (s : State) : Bool := s.cfg.haveSVE || s.cfg.haveSME

/-- The features of the zeroing classes are implemented: `HaveSVE2p2` or `HaveSME2p2`. -/
def State.zeroingFeature (s : State) : Bool := s.cfg.haveSVE2p2 || s.cfg.haveSME2p2

/-! ## Taking an exception (R124 to R134) -/

/-- A reported set brought within R129's bound: any set that holds an enabled signalled exception stays as it is, another
gets the enabled ones added. Every set within the bound is some free set's result. -/
def trapReport (free enabled : FPExcSet) : FPExcSet :=
  if (free.inter enabled).isEmpty then free.union enabled else free

/-- TAKING AN EXCEPTION, the one operation: the step ends in a terminal fault that records the exception's name, the
address of the instruction and its word (R125, R126, R127, R134, D7); `pc` is not advanced and nothing is written (R133).
For a trapped floating-point exception the reported set and the bits IOC, IXC, IDC of `FPSR` are free values within the
bound of R129 (log 11). There is no return from an exception in the model (R135). -/
def takeException (c : Exc) (w : Word) (s : State) : Host.Outcome State Fault Refusal :=
  match c with
  | .undefinedInstruction => .fault (.undefinedInstruction s.pc w)
  | .sveAccessTrap kind => .fault (.sveAccessTrap kind s.pc w)
  | .fpTrapped enabled =>
    .fault (.fpTrapped (trapReport (Config.freeTrapSet s.freeSeed) enabled)
      (fpsrAccumulate s.fpsr (Config.freeTrapFlags s.freeSeed)) s.pc w)

/-- The address of the instruction a fault stopped at (R126). -/
def Fault.pc : Fault → Addr
  | .undefinedInstruction pc _ => pc
  | .sveAccessTrap _ pc _ => pc
  | .fpTrapped _ _ pc _ => pc

/-- The word of the instruction a fault stopped at (R126). -/
def Fault.word : Fault → Word
  | .undefinedInstruction _ w => w
  | .sveAccessTrap _ _ w => w
  | .fpTrapped _ _ _ w => w

/-! ## Instruction memory (R45, R47, R50) -/

/-- The byte at an address; none where the text has none (R50). -/
def Memory.read (m : Memory) (a : Nat) : Option Byte :=
  match m with
  | [] => none
  | (b, v) :: rest => if a = b then some v else Memory.read rest a

/-- Place a byte, keeping the addresses strictly rising. Only the loading of a program does it: nothing in scope stores
(R55). -/
def Memory.write (m : Memory) (a : Nat) (v : Byte) : Memory :=
  match m with
  | [] => [(a, v)]
  | (b, u) :: rest =>
    if a < b then (a, v) :: (b, u) :: rest
    else if a = b then (a, v) :: rest
    else (b, u) :: Memory.write rest a v

/-- The addresses listed are strictly rising, from `lo` on, and each is a 64-bit address. -/
def Memory.risingFrom (lo : Nat) (m : Memory) : Bool :=
  match m with
  | [] => true
  | (a, _) :: rest => decide (lo ≤ a) && decide (a < 2 ^ 64) && Memory.risingFrom (a + 1) rest

/-- The canonical form: addresses strictly rising. An unlisted address reads as no value, so no entry can equal it. -/
def Memory.wf (m : Memory) : Bool := Memory.risingFrom 0 m

/-- The addresses listed are exactly `a`, `a+1`, `a+2`, … in order. -/
def Memory.contiguousFrom (a : Nat) (m : Memory) : Bool :=
  match m with
  | [] => true
  | (b, _) :: rest => decide (a = b) && Memory.contiguousFrom (a + 1) rest

/-- Place bytes at increasing addresses. -/
def Memory.writeBytes (m : Memory) (a : Nat) (bytes : List Byte) : Memory :=
  match bytes with
  | [] => m
  | b :: rest => Memory.writeBytes (Memory.write m a b) (a + 1) rest

/-- The four bytes from an address on; none where one of them does not exist (R50). -/
def Memory.fetch4 (m : Memory) (a : Nat) : Option (List Byte) :=
  match Memory.read m a, Memory.read m (a + 1), Memory.read m (a + 2), Memory.read m (a + 3) with
  | some b0, some b1, some b2, some b3 => some [b0, b1, b2, b3]
  | _, _, _, _ => none

/-! ## Fetch and the end of a run (R47, R49, R50, R146) -/

/-- `entry`: the address of the first byte of the program text; for an empty text, `pc` (R145 (a), R50). -/
def State.entry (s : State) : Nat :=
  match s.mem with
  | [] => s.pc.toNat
  | (a, _) :: _ => a

/-- `len`: the number of words of the program text (R50). -/
def State.len (s : State) : Nat := s.mem.length / 4

/-- `pc = entry + 4*len`: the run has ended normally and the state is final (R146). -/
def State.isFinal (s : State) : Bool := s.pc == BitVec.ofNat 64 (s.entry + 4 * s.len)

/-- `pc` is a multiple of 4 (R21, R49). -/
def State.pcAligned (s : State) : Bool := s.pc.toNat % 4 == 0

/-- Why no instruction can be fetched at `pc`: it is misaligned (R49), or it is the end of the text (R146), or it is
outside the text (R50). -/
def State.noFetch (s : State) : Refusal :=
  if !s.pcAligned then .pcMisaligned s.pc
  else if s.isFinal then .endOfRun s.pc
  else .fetchOutsideText s.pc

/-- The bytes of the instruction at `pc`, if `pc` is a multiple of 4 and they exist (R47, R49, R50). -/
def State.fetch (s : State) : Option (List Byte) := if s.pcAligned then Memory.fetch4 s.mem s.pc.toNat else none

/-- The refusal of bytes that are not an instruction of the group (R73, R74). `w` is the word fetched. -/
def refuseWord (e : DecodeError) (w : Word) (s : State) : Refusal :=
  match e with
  | .truncated => .fetchOutsideText s.pc
  | .selectorNotDescribed => .selectorNotDescribed s.pc w
  | .notInGroup => .notInGroup s.pc w

/-- The word four bytes form (R47); 0 for a list that is not four bytes. -/
def fetchedWord : List Byte → Word
  | [b0, b1, b2, b3] => wordOfBytes b0 b1 b2 b3
  | _ => 0

/-- Load a word at `pc`, where the next step fetches. -/
def State.loadWordAtPc (s : State) (w : Word) : State :=
  { s with mem := Memory.writeBytes s.mem s.pc.toNat (bytesOfWord w) }

end Sys2Proof.Machine
end

