-- ==== Sys2Proof/Machine/Frint.lean ====
section
/-! DEFINITION. The operation that all 14 encodings share (40_frint_operation.md R80 to R89, R105, R108; the decode
clause's checks, 30_encoding.md R69 to R72). -/

namespace Sys2Proof.Machine

/-- The loop's effect on `result` after its first `count` turns, in increasing element order: an active element is
replaced by its rounded value, an inactive one keeps what `init` has (R86). -/
def roundLoop {n k : Nat} (F : FPRoundIntFn) (f : Fmt) (fpcr : BitVec 64) (rounding : FPRounding) (exact : Bool)
    (mask : BitVec k) (operand init : BitVec n) : Nat → BitVec n
  | 0 => init
  | e + 1 =>
    let result := roundLoop F f fpcr rounding exact mask operand init e
    if activeElement mask e f then
      setElement f result e (F.value f (element f operand e) fpcr rounding exact)
    else result

/-- The exceptions the active elements among the first `count` signal; an inactive element is never passed to
`FPRoundInt` (R105). -/
def flagLoop {n k : Nat} (F : FPRoundIntFn) (f : Fmt) (fpcr : BitVec 64) (rounding : FPRounding) (exact : Bool)
    (mask : BitVec k) (operand : BitVec n) : Nat → FPExcSet
  | 0 => .none
  | e + 1 =>
    let flags := flagLoop F f fpcr rounding exact mask operand e
    if activeElement mask e f then flags.union (F.flags f (element f operand e) fpcr rounding exact) else flags

/-- `operand`: `Z[n]` if some element is active, else zeros (R83, R85). -/
def frintOperand (f : Fmt) (o : Operands) (s : State) : BitVec s.cfg.vl :=
  if anyActiveElement s.cfg.vl (s.readP o.pg) f then s.readZ o.zn else 0

/-- The initial `result`: `Z[d]` when merging, zeros when zeroing (R83). -/
def frintInit (merging : Bool) (o : Operands) (s : State) : BitVec s.cfg.vl := if merging then s.readZ o.zd else 0

/-- The vector the loop leaves in `result` (R86). -/
def frintResult (F : FPRoundIntFn) (f : Fmt) (rounding : FPRounding) (exact merging : Bool) (o : Operands) (s : State) :
    BitVec s.cfg.vl :=
  roundLoop F f s.fpcrValue rounding exact (s.readP o.pg) (frintOperand f o s) (frintInit merging o s)
    (elementCount s.cfg.vl f)

/-- The exceptions the whole instruction signals (R105). -/
def frintFlags (F : FPRoundIntFn) (f : Fmt) (rounding : FPRounding) (exact : Bool) (o : Operands) (s : State) :
    FPExcSet :=
  flagLoop F f s.fpcrValue rounding exact (s.readP o.pg) (frintOperand f o s) (elementCount s.cfg.vl f)

/-- The exceptions the instruction signals whose trap-enable bit is 1 (R102, R129). -/
def frintTraps (F : FPRoundIntFn) (f : Fmt) (rounding : FPRounding) (exact : Bool) (o : Operands) (s : State) :
    FPExcSet :=
  (frintFlags F f rounding exact o s).inter (enabledTraps s.fpcrValue)

/-- Write-back: `Z[d] <- result`, `FPSR <- FPSR OR flags`, `pc <- pc + 4` (R87). -/
def frintWriteBack (d : ZReg) (s : State) (result : BitVec s.cfg.vl) (flags : FPExcSet) : State :=
  ((s.writeZ d result).accumulateFPSR flags).advancePc

/-- The operation block after `CheckSVEEnabled()` has passed (R82 to R87); if an active element signals an exception whose
trap is enabled, the exception is taken instead (R129). -/
def frintOperation (F : FPRoundIntFn) (f : Fmt) (rounding : FPRounding) (exact merging : Bool) (w : Word) (o : Operands)
    (s : State) : Host.Outcome State Fault Refusal :=
  if (frintTraps F f rounding exact o s).isEmpty then
    .next (frintWriteBack o.zd s (frintResult F f rounding exact merging o s) (frintFlags F f rounding exact o s))
  else takeException (.fpTrapped (frintTraps F f rounding exact o s)) w s

/-- An instruction of the group, from its decode-time constants (R65): the feature check (R71), the check of `size` (R70),
`CheckSVEEnabled()` (R81), the operation; the order is that of R69, R80 and R132. `feature` says whether the class's
features are implemented, `w` is the instruction's word. -/
def frint (F : FPRoundIntFn) (feature : Bool) (rounding : FPRounding) (exact merging : Bool) (w : Word) (o : Operands)
    (s : State) : Host.Outcome State Fault Refusal :=
  if !feature then takeException .undefinedInstruction w s
  else
    match sizeFmt o.size with
    | none => takeException .undefinedInstruction w s
    | some f =>
      match s.cfg.sveCheck with
      | .trap kind => takeException (.sveAccessTrap kind) w s
      | .ok => frintOperation F f rounding exact merging w o s

end Sys2Proof.Machine
end

