-- ==== Sys2Proof/Machine/FrintMerging.lean ====
section
/-! DEFINITION. The meanings of the seven merging instructions (41_frint_instructions.md): the decode-time constants of each
class (R65) given to the shared operation. They need `HaveSVE` or `HaveSME` (R71). -/

namespace Sys2Proof.Machine

/-- `FRINTX` merging, class "Current mode signalling inexact, merging" (R110). -/
def execFrintxM (o : Operands) (s : State) : Host.Outcome State Fault Refusal :=
  frint fpRoundInt s.mergingFeature (fpRoundingMode s.fpcrValue) true true (encode (.frintxM o)) o s

/-- `FRINTI` merging, class "Current mode, merging" (R112). -/
def execFrintiM (o : Operands) (s : State) : Host.Outcome State Fault Refusal :=
  frint fpRoundInt s.mergingFeature (fpRoundingMode s.fpcrValue) false true (encode (.frintiM o)) o s

/-- `FRINTA` merging, class "Nearest with ties to away, merging" (R114). -/
def execFrintaM (o : Operands) (s : State) : Host.Outcome State Fault Refusal :=
  frint fpRoundInt s.mergingFeature .tieAway false true (encode (.frintaM o)) o s

/-- `FRINTN` merging, class "Nearest with ties to even, merging" (R116). -/
def execFrintnM (o : Operands) (s : State) : Host.Outcome State Fault Refusal :=
  frint fpRoundInt s.mergingFeature .tieEven false true (encode (.frintnM o)) o s

/-- `FRINTZ` merging, class "Toward zero, merging" (R118). -/
def execFrintzM (o : Operands) (s : State) : Host.Outcome State Fault Refusal :=
  frint fpRoundInt s.mergingFeature .zero false true (encode (.frintzM o)) o s

/-- `FRINTM` merging, class "Toward minus infinity, merging" (R120). -/
def execFrintmM (o : Operands) (s : State) : Host.Outcome State Fault Refusal :=
  frint fpRoundInt s.mergingFeature .negInf false true (encode (.frintmM o)) o s

/-- `FRINTP` merging, class "Toward plus infinity, merging" (R122). -/
def execFrintpM (o : Operands) (s : State) : Host.Outcome State Fault Refusal :=
  frint fpRoundInt s.mergingFeature .posInf false true (encode (.frintpM o)) o s

end Sys2Proof.Machine
end

