-- ==== Sys2Proof/Machine/FrintZeroing.lean ====
section
/-! DEFINITION. The meanings of the seven zeroing instructions (41_frint_instructions.md): the decode-time constants of each
class (R65) given to the shared operation. They need `HaveSVE2p2` or `HaveSME2p2` (R71). -/

namespace Sys2Proof.Machine

/-- `FRINTX` zeroing, class "Current mode signalling inexact, zeroing" (R111). -/
def execFrintxZ (o : Operands) (s : State) : Host.Outcome State Fault Refusal :=
  frint fpRoundInt s.zeroingFeature (fpRoundingMode s.fpcrValue) true false (encode (.frintxZ o)) o s

/-- `FRINTI` zeroing, class "Current mode, zeroing" (R113). -/
def execFrintiZ (o : Operands) (s : State) : Host.Outcome State Fault Refusal :=
  frint fpRoundInt s.zeroingFeature (fpRoundingMode s.fpcrValue) false false (encode (.frintiZ o)) o s

/-- `FRINTA` zeroing, class "Nearest with ties to away, zeroing" (R115). -/
def execFrintaZ (o : Operands) (s : State) : Host.Outcome State Fault Refusal :=
  frint fpRoundInt s.zeroingFeature .tieAway false false (encode (.frintaZ o)) o s

/-- `FRINTN` zeroing, class "Nearest with ties to even, zeroing" (R117). -/
def execFrintnZ (o : Operands) (s : State) : Host.Outcome State Fault Refusal :=
  frint fpRoundInt s.zeroingFeature .tieEven false false (encode (.frintnZ o)) o s

/-- `FRINTZ` zeroing, class "Toward zero, zeroing" (R119). -/
def execFrintzZ (o : Operands) (s : State) : Host.Outcome State Fault Refusal :=
  frint fpRoundInt s.zeroingFeature .zero false false (encode (.frintzZ o)) o s

/-- `FRINTM` zeroing, class "Toward minus infinity, zeroing" (R121). -/
def execFrintmZ (o : Operands) (s : State) : Host.Outcome State Fault Refusal :=
  frint fpRoundInt s.zeroingFeature .negInf false false (encode (.frintmZ o)) o s

/-- `FRINTP` zeroing, class "Toward plus infinity, zeroing" (R123). -/
def execFrintpZ (o : Operands) (s : State) : Host.Outcome State Fault Refusal :=
  frint fpRoundInt s.zeroingFeature .posInf false false (encode (.frintpZ o)) o s

end Sys2Proof.Machine
end

