-- ==== Sys2Proof/Machine/Dispatch.lean ====
section
/-! DEFINITION. One arm per constructor of Instr, each one direct call of the instruction's meaning. -/

namespace Sys2Proof.Machine

def exec (i : Instr) (s : State) : Host.Outcome State Fault Refusal :=
  match i with
  | .frintxM o => Sys2Proof.Machine.execFrintxM o s
  | .frintxZ o => Sys2Proof.Machine.execFrintxZ o s
  | .frintiM o => Sys2Proof.Machine.execFrintiM o s
  | .frintiZ o => Sys2Proof.Machine.execFrintiZ o s
  | .frintaM o => Sys2Proof.Machine.execFrintaM o s
  | .frintaZ o => Sys2Proof.Machine.execFrintaZ o s
  | .frintnM o => Sys2Proof.Machine.execFrintnM o s
  | .frintnZ o => Sys2Proof.Machine.execFrintnZ o s
  | .frintzM o => Sys2Proof.Machine.execFrintzM o s
  | .frintzZ o => Sys2Proof.Machine.execFrintzZ o s
  | .frintmM o => Sys2Proof.Machine.execFrintmM o s
  | .frintmZ o => Sys2Proof.Machine.execFrintmZ o s
  | .frintpM o => Sys2Proof.Machine.execFrintpM o s
  | .frintpZ o => Sys2Proof.Machine.execFrintpZ o s

end Sys2Proof.Machine
end

