-- ==== Sys2Proof/Machine/Step.lean ====
section
/-! DEFINITION. One step: fetch at `pc`, decode, execute (R44, R69, R80; the outcomes R138). -/

namespace Sys2Proof.Machine

/-- One step of the machine. -/
def step (s : State) : Host.Outcome State Fault Refusal :=
  match s.fetch with
  | none => .refused s.noFetch
  | some bytes =>
    match decodeBytes bytes with
    | .ok (i, _) => exec i s
    | .error e => .refused (refuseWord e (fetchedWord bytes) s)

/-- The state with an instruction's word stored where the next step fetches it: at `pc`, in the byte order of R47. It stands
for the loading of a program from outside the machine (log 6). -/
def State.withFetchWord (s : State) (nbits w : Nat) : State := s.loadWordAtPc (tableWord nbits w)

end Sys2Proof.Machine
end

