-- ==== Sys2Proof/Machine/Syndrome.lean ====
section
/-! DEFINITION. What the architecture records of each fault, for a reader who embeds the group (60_exceptions.md R125 to
R129, general knowledge of the spec, G7; log 26, UNVERIFIED). No step reads it: in the model a fault is terminal (D7). -/

namespace Sys2Proof.Machine

/-- `ESR_ELx.EC` of an access trap kind: `0x19` SVE, `0x1D` SME, `0x07` floating point (R127); none for an answer of the
parameter that R127 does not name. -/
def trapKindEC : TrapKind → Option (BitVec 6)
  | .sve => some 0x19#6
  | .sme => some 0x1D#6
  | .smeStreamingRequired => some 0x1D#6
  | .fp => some 0x07#6
  | .other _ => none

/-- `ESR_ELx.EC` of a fault: `0x00` undefined instruction (R125), the trap kind's (R127), `0x2C` trapped floating-point
exception (R129). -/
def faultEC : Fault → Option (BitVec 6)
  | .undefinedInstruction _ _ => some 0x00#6
  | .sveAccessTrap kind _ _ => trapKindEC kind
  | .fpTrapped _ _ _ _ => some 0x2C#6

/-- `ELR_ELx`: the return address is that of the instruction itself (R125, R126). -/
def faultReturnAddress (x : Fault) : Addr := x.pc

/-- The exception bits of the syndrome of a trapped floating-point exception, when `TFV` is 1: `IDF` bit 7, `IXF` bit 4,
`IOF` bit 0 (R129). They are at the places of the cumulative bits. -/
def faultFPBits : Fault → Option (BitVec 64)
  | .undefinedInstruction _ _ => none
  | .sveAccessTrap _ _ _ => none
  | .fpTrapped set _ _ _ => some set.fpsrBits

end Sys2Proof.Machine
end

