-- ==== Sys2Proof/WellFormed.lean ====
section
/-! DEFINITION. Which instructions are well formed. The types of the operands already keep register numbers in range
(R62: every value of `Pg`, `Zn`, `Zd` is legal), so the one check left is on `size`. -/

namespace Sys2Proof

/-- `size = '00'` is the one illegal operand value (R62, R70). -/
def Size.legal : Size → Bool
  | .size00 => false
  | .half => true
  | .single => true
  | .double => true

/-- Well-formed: the element size is one that exists. An instruction that is not well formed still has an encoding
(its word matches the row, R70) and a meaning (it raises Undefined Instruction). -/
def Instr.wf (i : Instr) : Bool := i.operands.size.legal

end Sys2Proof
end

