-- ==== Sys2Proof/Safety.lean ====
section
/-! DEFINITION. The terms in which claims are made: the decode-time constants of each class, the closed form of the shared
operation, the numerical value of a datum and its rounding, launch states, the invariant, and what a safe run is. -/

namespace Sys2Proof.Safety

open Sys2Proof.Machine

/-! ## Decode-time constants (R65) -/

/-- The column `exact` of R65. -/
def exactOf : Instr → Bool
  | .frintxM _ => true
  | .frintxZ _ => true
  | .frintiM _ => false
  | .frintiZ _ => false
  | .frintaM _ => false
  | .frintaZ _ => false
  | .frintnM _ => false
  | .frintnZ _ => false
  | .frintzM _ => false
  | .frintzZ _ => false
  | .frintmM _ => false
  | .frintmZ _ => false
  | .frintpM _ => false
  | .frintpZ _ => false

/-- The column `rounding` of R65; `fpcr` is the value a read of `FPCR` returns. -/
def roundingOf (i : Instr) (fpcr : BitVec 64) : FPRounding :=
  match i with
  | .frintxM _ => fpRoundingMode fpcr
  | .frintxZ _ => fpRoundingMode fpcr
  | .frintiM _ => fpRoundingMode fpcr
  | .frintiZ _ => fpRoundingMode fpcr
  | .frintaM _ => .tieAway
  | .frintaZ _ => .tieAway
  | .frintnM _ => .tieEven
  | .frintnZ _ => .tieEven
  | .frintzM _ => .zero
  | .frintzZ _ => .zero
  | .frintmM _ => .negInf
  | .frintmZ _ => .negInf
  | .frintpM _ => .posInf
  | .frintpZ _ => .posInf

/-- The instruction takes its rounding from the encoding, not from `FPCR`: the classes N, A, M, P, Z (R106). -/
def fixedRounding (i : Instr) : Prop := ∀ u v : BitVec 64, roundingOf i u = roundingOf i v

/-- The features of the instruction's class are implemented (R71). -/
def featureOf (i : Instr) (s : State) : Bool := if i.isMerging then s.mergingFeature else s.zeroingFeature

/-! ## The closed form (R89) -/

/-- Element `e` exists and is active (R82, R84). -/
def Active (f : Fmt) (o : Operands) (s : State) (e : Nat) : Prop :=
  e < elementCount s.cfg.vl f ∧ (s.readP o.pg).getLsbD (e * (f.bits / 8)) = true

/-- Some active element of the source has the property. -/
def SomeActive (f : Fmt) (o : Operands) (s : State) (P : BitVec f.bits → Prop) : Prop :=
  ∃ e, Active f o s e ∧ P (element f (s.readZ o.zn) e)

/-- No active element signals an exception whose trap-enable bit is 1 (R102, R129). -/
def NoTrap (F : FPRoundIntFn) (f : Fmt) (rounding : FPRounding) (exact : Bool) (o : Operands) (s : State) : Prop :=
  ∀ e, Active f o s e →
    (F.flags f (element f (s.readZ o.zn) e) s.fpcrValue rounding exact).inter (enabledTraps s.fpcrValue) = .none

/-- The vector and the flags an instruction leaves, element by element: an active element is rounded, an inactive one is
kept (merging) or zero (zeroing); an exception is flagged exactly when some active element signals it (R89, R105). -/
structure ClosedForm (F : FPRoundIntFn) (f : Fmt) (rounding : FPRounding) (exact merging : Bool) (o : Operands)
    (s : State) (v : BitVec s.cfg.vl) (flags : FPExcSet) : Prop where
  active : ∀ e, Active f o s e → element f v e = F.value f (element f (s.readZ o.zn) e) s.fpcrValue rounding exact
  inactive : ∀ e, e < elementCount s.cfg.vl f → ¬ Active f o s e →
    element f v e = if merging then element f (s.readZ o.zd) e else 0
  invalidOp : flags.invalidOp = true ↔
    SomeActive f o s fun x => (F.flags f x s.fpcrValue rounding exact).invalidOp = true
  inexact : flags.inexact = true ↔ SomeActive f o s fun x => (F.flags f x s.fpcrValue rounding exact).inexact = true
  inputDenorm : flags.inputDenorm = true ↔
    SomeActive f o s fun x => (F.flags f x s.fpcrValue rounding exact).inputDenorm = true

/-- The instructions `c o` complete, for every operand of a size that exists, wherever their features are implemented, the
access check passes and no enabled trap is signalled; the next state is the closed form written back (R87, R89). -/
def CompletesByClosedForm (c : Operands → Instr) (feature : State → Bool) (rounding : BitVec 64 → FPRounding)
    (exact merging : Bool) : Prop :=
  ∀ (o : Operands) (s : State) (f : Fmt), feature s = true → sizeFmt o.size = some f → s.cfg.sveCheck = .ok →
    NoTrap fpRoundInt f (rounding s.fpcrValue) exact o s →
    ∃ v flags, exec (c o) s = .next (((s.writeZ o.zd v).accumulateFPSR flags).advancePc) ∧
      ClosedForm fpRoundInt f (rounding s.fpcrValue) exact merging o s v flags

/-- The state with predicate register `P[g]` set, for a governing predicate `g`. -/
def setP (s : State) (g : PReg) (m : BitVec (s.cfg.vl / 8)) : State :=
  { s with p := s.p.set (governing g).val m (governing g).isLt }

/-! ## Numerical value and rounding over the rationals (R91, R96) -/

/-- A datum that is neither an infinity nor a NaN. -/
def IsFinite (f : Fmt) (x : BitVec f.bits) : Prop := fpExp f x ≠ f.expMax

/-- A NaN (R91). -/
def IsNaN (f : Fmt) (x : BitVec f.bits) : Prop := fpExp f x = f.expMax ∧ fpFrac f x ≠ 0

/-- A signalling NaN: fraction bit `F-1` is 0 (R91). -/
def IsSignallingNaN (f : Fmt) (x : BitVec f.bits) : Prop := IsNaN f x ∧ x.getLsbD (f.fracBits - 1) = false

/-- A denormal (R91). -/
def IsDenormal (f : Fmt) (x : BitVec f.bits) : Prop := fpExp f x = 0 ∧ fpFrac f x ≠ 0

/-- The numerical value of a finite datum (R91). -/
def fpToRat (f : Fmt) (x : BitVec f.bits) : ℚ :=
  (if fpSign f x then -1 else 1) *
    (if fpExp f x = 0 then (fpFrac f x : ℚ) * 2 ^ (1 - (f.bias : ℤ) - (f.fracBits : ℤ))
     else (1 + (fpFrac f x : ℚ) / 2 ^ f.fracBits) * 2 ^ ((fpExp f x : ℤ) - (f.bias : ℤ)))

/-- `round_up` of R96, over the rationals. -/
def roundUpRat (rounding : FPRounding) (i : ℤ) (err : ℚ) : Bool :=
  match rounding with
  | .tieEven => decide (1 / 2 < err) || (decide (err = 1 / 2) && decide (i % 2 = 1))
  | .posInf => decide (err ≠ 0)
  | .negInf => false
  | .zero => decide (err ≠ 0) && decide (i < 0)
  | .tieAway => decide (1 / 2 < err) || (decide (err = 1 / 2) && decide (0 ≤ i))

/-- The integer a real value rounds to (R96). -/
def roundRat (rounding : FPRounding) (v : ℚ) : ℤ :=
  if roundUpRat rounding ⌊v⌋ (v - ⌊v⌋) then ⌊v⌋ + 1 else ⌊v⌋

/-! ## Launch states, the invariant, runs (R145, R146) -/

/-- The program text is a list of 32-bit words at `entry`, `entry+4`, … (R50, R145 (a)): the memory has its canonical form,
its addresses are consecutive from `entry`, `entry` is a multiple of 4 and the bytes make whole words. DESIGN CHOICE (log
30): the spec bounds the text nowhere. Here no address reaches 2^64, so a text may end at 2^64 but not wrap past it, `entry`
is its lowest address, and it has fewer than 2^64 bytes, so it does not fill the whole address space. -/
def textOk (s : State) : Bool :=
  s.mem.wf && Memory.contiguousFrom s.entry s.mem && s.entry % 4 == 0 && s.mem.length % 4 == 0 &&
    decide (s.mem.length < 2 ^ 64)

/-- The reserved fields of `FPCR` and `FPSR` are zero, the trap-enable bits are zero without `FPTrapSupport`, and `AH` and
`FIZ` without `HaveAFP` (R145 (f), R29, R33, D13). -/
def reservedZero (s : State) : Bool :=
  s.fpcr &&& ~~~fpcrLiveBits s.cfg == 0#64 && s.fpsr &&& ~~~fpsrLiveBits == 0#64

/-- The launch premises (R145): (a) the text and `pc = entry`, (c) the vector length, (f) the reserved fields; (d) and (e),
fixed parameters, are the type of `cfg`; (b) holds of every state, since a fault or refusal is an outcome and no state
records one; (g) nothing else is asked. -/
structure Launch (s : State) : Prop where
  text : textOk s = true
  pc : s.pc = BitVec.ofNat 64 s.entry
  vl : s.cfg.vlLegal = true
  reserved : reservedZero s = true

/-- The invariant of every run: the text is as at launch, `pc` is the address of a word of the text or the end of the text
(so it is a multiple of 4, R21), the vector length is legal, the reserved fields are zero. -/
structure RunInv (s : State) : Prop where
  text : textOk s = true
  inText : ∃ k, k ≤ s.len ∧ s.pc = BitVec.ofNat 64 (s.entry + 4 * k)
  aligned : s.pc.toNat % 4 = 0
  vl : s.cfg.vlLegal = true
  reserved : reservedZero s = true

/-- The run ends normally: after some steps, none of them a fault or a refusal, it is in a final state (R146). -/
def EndsNormally (s : State) : Prop := ∃ (k : Nat) (t : State), Host.Core.run Sys2Proof.core k s = .next t ∧ t.isFinal = true

/-- The bytes of the word at an address of memory are those of `w`, in the byte order of R47. -/
def WordAt (m : Memory) (a : Nat) (w : Word) : Prop :=
  Memory.read m a = some (w.extractLsb' 0 8) ∧ Memory.read m (a + 1) = some (w.extractLsb' 8 8) ∧
    Memory.read m (a + 2) = some (w.extractLsb' 16 8) ∧ Memory.read m (a + 3) = some (w.extractLsb' 24 8)

end Sys2Proof.Safety
end

