-- ==== Sys2Proof/Certificates/Slice0/Obligations.lean ====
section
/-! DEFINITION. The statements for the provers: encoding, decoding, faults, the shared operation, frames, what an
instruction does not depend on, the scalar rounding, invariants and runs. -/

open Sys2Proof Sys2Proof.Machine Sys2Proof.Safety

/-! ## Encoding and decoding -/

/-- Decoding the word of an instruction gives the instruction back, with every operand at every value the encoding admits,
`size = '00'` included (R59 to R62, R67, R68). -/
def Obligations.DecodeOfEncodeIsTheInstruction : Prop := ∀ i : Instr, decode (encode i) = .ok i

/-- A word that decodes is the word of the instruction it decodes to: each bit of the group's words is used (R66). -/
def Obligations.EncodeOfDecodeIsTheWord : Prop := ∀ (w : Word) (i : Instr), decode w = .ok i → encode i = w

/-- R67: a word is a merging encoding exactly when its fixed bits are format M's and `opc` is not 101; the class follows
from the per-class test, and `opc`, bits 18:16, has the row's value. -/
def Obligations.MergingWordsAreExactlyTheTable : Prop :=
  ∀ w : Word,
    ((∃ i, decode w = .ok i ∧ i.isMerging = true) ↔
      w &&& 0xFF38E000#32 = 0x6500A000#32 ∧ w.extractLsb' 16 3 ≠ 0b101#3) ∧
    ((∃ o, decode w = .ok (.frintnM o)) ↔ w &&& 0xFF3FE000#32 = 0x6500A000#32) ∧
    ((∃ o, decode w = .ok (.frintpM o)) ↔ w &&& 0xFF3FE000#32 = 0x6501A000#32) ∧
    ((∃ o, decode w = .ok (.frintmM o)) ↔ w &&& 0xFF3FE000#32 = 0x6502A000#32) ∧
    ((∃ o, decode w = .ok (.frintzM o)) ↔ w &&& 0xFF3FE000#32 = 0x6503A000#32) ∧
    ((∃ o, decode w = .ok (.frintaM o)) ↔ w &&& 0xFF3FE000#32 = 0x6504A000#32) ∧
    ((∃ o, decode w = .ok (.frintxM o)) ↔ w &&& 0xFF3FE000#32 = 0x6506A000#32) ∧
    ((∃ o, decode w = .ok (.frintiM o)) ↔ w &&& 0xFF3FE000#32 = 0x6507A000#32) ∧
    (∀ i, decode w = .ok i → i.isMerging = true → w.extractLsb' 16 3 = i.matchWord.extractLsb' 16 3)

/-- R68: a word is a zeroing encoding exactly when its fixed bits are format Z's and the selector `op : opc2` is not 101;
the class follows from the per-class test, and the selector has the row's value. A zeroing class and a merging class have
the same selector exactly when they have the same rounding option. -/
def Obligations.ZeroingWordsAreExactlyTheTable : Prop :=
  ∀ w : Word,
    ((∃ i, decode w = .ok i ∧ i.isMerging = false) ↔
      w &&& 0xFF3E8000#32 = 0x64188000#32 ∧ w.extractLsb' 16 1 ++ w.extractLsb' 13 2 ≠ 0b101#3) ∧
    ((∃ o, decode w = .ok (.frintnZ o)) ↔ w &&& 0xFF3FE000#32 = 0x64188000#32) ∧
    ((∃ o, decode w = .ok (.frintpZ o)) ↔ w &&& 0xFF3FE000#32 = 0x6418A000#32) ∧
    ((∃ o, decode w = .ok (.frintmZ o)) ↔ w &&& 0xFF3FE000#32 = 0x6418C000#32) ∧
    ((∃ o, decode w = .ok (.frintzZ o)) ↔ w &&& 0xFF3FE000#32 = 0x6418E000#32) ∧
    ((∃ o, decode w = .ok (.frintaZ o)) ↔ w &&& 0xFF3FE000#32 = 0x64198000#32) ∧
    ((∃ o, decode w = .ok (.frintxZ o)) ↔ w &&& 0xFF3FE000#32 = 0x6419C000#32) ∧
    ((∃ o, decode w = .ok (.frintiZ o)) ↔ w &&& 0xFF3FE000#32 = 0x6419E000#32) ∧
    (∀ i, decode w = .ok i → i.isMerging = false →
      w.extractLsb' 16 1 ++ w.extractLsb' 13 2 = i.matchWord.extractLsb' 16 1 ++ i.matchWord.extractLsb' 13 2) ∧
    (∀ (i j : Instr), i.isMerging = false → j.isMerging = true →
      (i.matchWord.extractLsb' 16 1 ++ i.matchWord.extractLsb' 13 2 = j.matchWord.extractLsb' 16 3 ↔
        ∀ v : BitVec 64, roundingOf i v = roundingOf j v ∧ exactOf i = exactOf j))

/-- R63, R64: every decoded word has `g = UInt(Pg)`, `n = UInt(Zn)`, `d = UInt(Zd)` from bits 12:10, 9:5, 4:0, and its
element size is `8 << UInt(size)` from bits 23:22 unless those are 00, when it has none. -/
def Obligations.OperandFieldsComeFromTheirBits : Prop :=
  ∀ (w : Word) (i : Instr), decode w = .ok i →
    i.operands.pg.val = (w.extractLsb' 10 3).toNat ∧ i.operands.zn.val = (w.extractLsb' 5 5).toNat ∧
    i.operands.zd.val = (w.extractLsb' 0 5).toNat ∧
    (sizeFmt i.operands.size = none ↔ w.extractLsb' 22 2 = 0b00#2) ∧
    (∀ f, sizeFmt i.operands.size = some f → f.bits = 8 <<< (w.extractLsb' 22 2).toNat)

/-- R73, R74: a word that matches none of the 14 patterns, the two selector-101 patterns among them, is refused where it is
fetched; it is not reported as an undefined instruction. -/
def Obligations.WordsOutsideThePatternsAreRefused : Prop :=
  ∀ (s : State) (w : Word), s.pc.toNat % 4 = 0 → WordAt s.mem s.pc.toNat w →
    (∀ i : Instr, w &&& 0xFF3FE000#32 ≠ i.matchWord) → ∃ r, step s = .refused r

/-- The words of 95_test_vectors.md E1 to E14, one of each class, decode to the instructions they stand for. -/
def Obligations.ExampleWordsDecode : Prop :=
  decode 0x65C6A420#32 = .ok (.frintxM ⟨.double, 1, 1, 0⟩) ∧
  decode 0x6459DFFE#32 = .ok (.frintxZ ⟨.half, 7, 31, 30⟩) ∧
  decode 0x6587A041#32 = .ok (.frintiM ⟨.single, 0, 2, 1⟩) ∧
  decode 0x64D9F554#32 = .ok (.frintiZ ⟨.double, 5, 10, 20⟩) ∧
  decode 0x6544A864#32 = .ok (.frintaM ⟨.half, 2, 3, 4⟩) ∧
  decode 0x64999A32#32 = .ok (.frintaZ ⟨.single, 6, 17, 18⟩) ∧
  decode 0x6580A020#32 = .ok (.frintnM ⟨.single, 0, 1, 0⟩) ∧
  decode 0x64D88D09#32 = .ok (.frintnZ ⟨.double, 3, 8, 9⟩) ∧
  decode 0x6543B18D#32 = .ok (.frintzM ⟨.half, 4, 12, 13⟩) ∧
  decode 0x6498E41F#32 = .ok (.frintzZ ⟨.single, 1, 0, 31⟩) ∧
  decode 0x65C2BFDD#32 = .ok (.frintmM ⟨.double, 7, 30, 29⟩) ∧
  decode 0x6458C3E0#32 = .ok (.frintmZ ⟨.half, 0, 31, 0⟩) ∧
  decode 0x6581ACA5#32 = .ok (.frintpM ⟨.single, 3, 5, 5⟩) ∧
  decode 0x64D8AAAB#32 = .ok (.frintpZ ⟨.double, 2, 21, 11⟩)

/-! ## Fetch and step -/

/-- When the word at an aligned `pc` decodes to an instruction, the step is `exec` of it at that state, with nothing
added; the advance of `pc` is the instruction's own (R44, R69, R80). -/
def Obligations.StepRunsTheDecodedInstruction : Prop :=
  ∀ (s : State) (w : Word) (i : Instr), s.pc.toNat % 4 = 0 → WordAt s.mem s.pc.toNat w → decode w = .ok i →
    step s = exec i s

/-- R47: where the four bytes at an aligned `pc` exist they are fetched, and the word decoded from them has the byte at the
lowest address in bits 7:0 and the next ones above it. The bytes `20 A4 C6 65` are the word `0x65C6A420`. -/
def Obligations.FetchedWordIsLittleEndian : Prop :=
  (∀ (s : State) (b0 b1 b2 b3 : Byte), s.pc.toNat % 4 = 0 → Memory.read s.mem s.pc.toNat = some b0 →
    Memory.read s.mem (s.pc.toNat + 1) = some b1 → Memory.read s.mem (s.pc.toNat + 2) = some b2 →
    Memory.read s.mem (s.pc.toNat + 3) = some b3 →
    ∃ bytes, s.fetch = some bytes ∧ (fetchedWord bytes).extractLsb' 0 8 = b0 ∧
      (fetchedWord bytes).extractLsb' 8 8 = b1 ∧ (fetchedWord bytes).extractLsb' 16 8 = b2 ∧
      (fetchedWord bytes).extractLsb' 24 8 = b3 ∧
      ∀ i rest, decodeBytes bytes = .ok (i, rest) ↔ decode (fetchedWord bytes) = .ok i ∧ rest = []) ∧
  wordOfBytes 0x20#8 0xA4#8 0xC6#8 0x65#8 = 0x65C6A420#32

/-- The model's choice of how a program is placed (log 6): a word loaded at an aligned `pc` is what the next step runs, and
no byte outside its four changes. -/
def Obligations.LoadedWordRunsNext : Prop :=
  ∀ (s : State) (w : Nat) (i : Instr), s.pc.toNat % 4 = 0 → decodeTableWord 32 w = some i →
    step (s.withFetchWord 32 w) = exec i (s.withFetchWord 32 w) ∧
    ∀ a, a < s.pc.toNat ∨ s.pc.toNat + 4 ≤ a → Memory.read (s.withFetchWord 32 w).mem a = Memory.read s.mem a

/-! ## Faults and their order -/

/-- R70: a word with `size = '00'` is an undefined instruction in every class, on every implementation, in every state; the
fault carries the address and the word. -/
def Obligations.SizeZeroIsUndefinedInEveryClass : Prop :=
  ∀ (i : Instr) (s : State), i.operands.size = .size00 → exec i s = .fault (.undefinedInstruction s.pc (encode i))

/-- R70, R71: an instruction is undefined exactly when its size is 00 or its class's features are absent: `HaveSVE` and
`HaveSME` both false for a merging class, `HaveSVE2p2` and `HaveSME2p2` both false for a zeroing class. -/
def Obligations.UndefinedExactlyWhenFeaturesOrSizeSay : Prop :=
  ∀ (i : Instr) (s : State),
    (exec i s = .fault (.undefinedInstruction s.pc (encode i)) ↔
      (i.isMerging = true ∧ s.cfg.haveSVE = false ∧ s.cfg.haveSME = false) ∨
      (i.isMerging = false ∧ s.cfg.haveSVE2p2 = false ∧ s.cfg.haveSME2p2 = false) ∨ i.operands.size = .size00) ∧
    ∀ pc w, exec i s = .fault (.undefinedInstruction pc w) → pc = s.pc ∧ w = encode i

/-- R72, R81, R132: exactly one cause is reported, in the order missing feature, `size = '00'`, access trap, trapped
floating-point exception; with none of them the instruction completes. -/
def Obligations.OutcomeFollowsThePriorityOrder : Prop :=
  ∀ (i : Instr) (s : State),
    (featureOf i s = false → exec i s = .fault (.undefinedInstruction s.pc (encode i))) ∧
    (featureOf i s = true → i.operands.size = .size00 →
      exec i s = .fault (.undefinedInstruction s.pc (encode i))) ∧
    (∀ f k, featureOf i s = true → sizeFmt i.operands.size = some f → s.cfg.sveCheck = .trap k →
      exec i s = .fault (.sveAccessTrap k s.pc (encode i))) ∧
    (∀ f, featureOf i s = true → sizeFmt i.operands.size = some f → s.cfg.sveCheck = .ok →
      ¬ NoTrap fpRoundInt f (roundingOf i s.fpcrValue) (exactOf i) i.operands s →
      ∃ set fpsr, exec i s = .fault (.fpTrapped set fpsr s.pc (encode i))) ∧
    (∀ f, featureOf i s = true → sizeFmt i.operands.size = some f → s.cfg.sveCheck = .ok →
      NoTrap fpRoundInt f (roundingOf i s.fpcrValue) (exactOf i) i.operands s → ∃ t, exec i s = .next t)

/-- The bound of R129 on a trapped floating-point exception, for every value of the free values (log 11): the reported set
holds an enabled exception that some active element signalled; each of IOC, IXC, IDC is the old value or 1 and every other
bit of `FPSR` is as it was. -/
def Obligations.TrapReportIsWithinItsBound : Prop :=
  ∀ (i : Instr) (s : State) (f : Fmt) (set : FPExcSet) (fpsr : BitVec 64) (pc : Addr) (w : Word),
    sizeFmt i.operands.size = some f → exec i s = .fault (.fpTrapped set fpsr pc w) →
    (∃ e, Active f i.operands s e ∧
      ((set.inter (enabledTraps s.fpcrValue)).inter
        (fpRoundIntFlags f (element f (s.readZ i.operands.zn) e) s.fpcrValue (roundingOf i s.fpcrValue)
          (exactOf i))).isEmpty = false) ∧
    fpsr &&& s.fpsr = s.fpsr ∧ fpsr &&& ~~~0x91#64 = s.fpsr &&& ~~~0x91#64

/-- Without `FPTrapSupport` the six trap-enable bits 15, 12, 11, 10, 9, 8 of `FPCR` read as zero (mask 0x9F00), whatever the
register stores, and no floating-point exception traps (R29, R129). -/
def Obligations.NoFloatingPointTrapWithoutSupport : Prop :=
  ∀ (i : Instr) (s : State), s.cfg.fpTrapSupport = false →
    s.fpcrValue &&& 0x9F00#64 = 0#64 ∧ enabledTraps s.fpcrValue = .none ∧
    ∀ set fpsr pc w, exec i s ≠ .fault (.fpTrapped set fpsr pc w)

/-- Every fault of every instruction carries the address and the word of that instruction (R126, first sentence about the
model), and no instruction of the group is refused (R138: only a word outside it is). -/
def Obligations.FaultsRecordTheInstructionAndNothingIsRefused : Prop :=
  ∀ (i : Instr) (s : State), (∀ x, exec i s = .fault x → x.pc = s.pc ∧ x.word = encode i) ∧
    ∀ r, exec i s ≠ .refused r

/-- The syndrome class of every fault and of every trap kind R127 names, and the return address of every fault: what the
architecture records (R125 to R127, R129: general knowledge of the spec). The names of the trap kinds (log 18), the class of
`smeStreamingRequired`, which R127 (b) calls an SME access trap, and the absent class of `other` (log 26) are the model's. -/
def Obligations.SyndromeClassesOfFaults : Prop :=
  (∀ (pc : Addr) (w : Word) (set : FPExcSet) (fpsr : BitVec 64) (code : Nat),
    faultEC (.undefinedInstruction pc w) = some 0x00#6 ∧ faultEC (.sveAccessTrap .sve pc w) = some 0x19#6 ∧
    faultEC (.sveAccessTrap .sme pc w) = some 0x1D#6 ∧
    faultEC (.sveAccessTrap .smeStreamingRequired pc w) = some 0x1D#6 ∧
    faultEC (.sveAccessTrap .fp pc w) = some 0x07#6 ∧ faultEC (.sveAccessTrap (.other code) pc w) = none ∧
    faultEC (.fpTrapped set fpsr pc w) = some 0x2C#6) ∧
  ∀ (i : Instr) (s : State) (x : Fault), exec i s = .fault x → faultReturnAddress x = s.pc

/-! ## The operation -/

/-- The seven merging instructions complete, each with its decode-time constants (R65), and leave the closed form: active
elements rounded, inactive elements kept, flags of the active elements accumulated, `pc + 4` (R89, R110 to R122). -/
def Obligations.MergingFormsCompleteWithTheClosedForm : Prop :=
  CompletesByClosedForm .frintxM State.mergingFeature fpRoundingMode true true ∧
  CompletesByClosedForm .frintiM State.mergingFeature fpRoundingMode false true ∧
  CompletesByClosedForm .frintaM State.mergingFeature (fun _ => .tieAway) false true ∧
  CompletesByClosedForm .frintnM State.mergingFeature (fun _ => .tieEven) false true ∧
  CompletesByClosedForm .frintzM State.mergingFeature (fun _ => .zero) false true ∧
  CompletesByClosedForm .frintmM State.mergingFeature (fun _ => .negInf) false true ∧
  CompletesByClosedForm .frintpM State.mergingFeature (fun _ => .posInf) false true

/-- The seven zeroing instructions complete, each with its decode-time constants (R65), and leave the closed form: active
elements rounded, inactive elements zero, flags of the active elements accumulated, `pc + 4` (R89, R111 to R123). -/
def Obligations.ZeroingFormsCompleteWithTheClosedForm : Prop :=
  CompletesByClosedForm .frintxZ State.zeroingFeature fpRoundingMode true false ∧
  CompletesByClosedForm .frintiZ State.zeroingFeature fpRoundingMode false false ∧
  CompletesByClosedForm .frintaZ State.zeroingFeature (fun _ => .tieAway) false false ∧
  CompletesByClosedForm .frintnZ State.zeroingFeature (fun _ => .tieEven) false false ∧
  CompletesByClosedForm .frintzZ State.zeroingFeature (fun _ => .zero) false false ∧
  CompletesByClosedForm .frintmZ State.zeroingFeature (fun _ => .negInf) false false ∧
  CompletesByClosedForm .frintpZ State.zeroingFeature (fun _ => .posInf) false false

/-- The sequential operation with its loop is its closed form, for EVERY configuration function `FPRoundInt` (D12), every
element size, rounding and predication: it completes exactly when no enabled trap is signalled (R82 to R89, R105, R129). -/
def Obligations.LoopIsTheClosedFormForAnyFPRoundInt : Prop :=
  ∀ (F : FPRoundIntFn) (f : Fmt) (rounding : FPRounding) (exact merging : Bool) (w : Word) (o : Operands) (s : State),
    (NoTrap F f rounding exact o s ↔ ∃ t, frintOperation F f rounding exact merging w o s = .next t) ∧
    (NoTrap F f rounding exact o s →
      ∃ v flags, frintOperation F f rounding exact merging w o s =
        .next (((s.writeZ o.zd v).accumulateFPSR flags).advancePc) ∧
        ClosedForm F f rounding exact merging o s v flags)

/-- R41, the frame: a completed instruction of the group changes at most `Z[d]`, the bits IOC, IXC, IDC of `FPSR` (mask
0x91) and `pc`; every other vector register, every predicate register, `FPCR`, the configuration and every byte of memory
are as before. A fault reports the `pc` as it was and, for a trapped exception, an `FPSR` that differs in those three bits
only. -/
def Obligations.CompletedInstructionFrame : Prop :=
  ∀ (i : Instr) (s : State),
    (∀ t, exec i s = .next t →
      (∃ v fpsr, t = { s with z := s.z.set i.operands.zd.val v i.operands.zd.isLt, fpsr := fpsr, pc := s.pc + 4#64 }) ∧
      t.cfg = s.cfg ∧ (∀ n, n ≠ i.operands.zd → (t.readZ n).toNat = (s.readZ n).toNat) ∧
      (∀ k : Fin 16, (t.p.get k).toNat = (s.p.get k).toNat) ∧ t.fpcr = s.fpcr ∧
      t.fpsr &&& ~~~0x91#64 = s.fpsr &&& ~~~0x91#64 ∧ (∀ a, Memory.read t.mem a = Memory.read s.mem a)) ∧
    (∀ x, exec i s = .fault x → x.pc = s.pc ∧
      ∀ set fpsr pc w, x = .fpTrapped set fpsr pc w → fpsr &&& ~~~0x91#64 = s.fpsr &&& ~~~0x91#64)

/-- R22: an instruction that completes sets `pc` to `pc + 4` modulo 2^64; one that raises an exception leaves `pc` at its
own address. -/
def Obligations.PcAdvancesByFourOrStays : Prop :=
  ∀ (i : Instr) (s : State), (∀ t, exec i s = .next t → t.pc.toNat = (s.pc.toNat + 4) % 2 ^ 64) ∧
    (∀ x, exec i s = .fault x → x.pc = s.pc)

/-- When the bits of `FPSR` are set (R34 with R103's conditions): after a completed instruction, IOC is the old bit or some
active element is a signalling NaN; IXC is the old bit or the option is X and some active element is finite, not an integer
and not a flushed denormal; IDC is the old bit or some active 32- or 64-bit element is a denormal with `FZ = 1`, `AH = 0`.
-/
def Obligations.FpsrBitsAreSetExactlyWhen : Prop :=
  ∀ (i : Instr) (s t : State) (f : Fmt), sizeFmt i.operands.size = some f → exec i s = .next t →
    (t.fpsr.getLsbD 0 = true ↔ s.fpsr.getLsbD 0 = true ∨ SomeActive f i.operands s (IsSignallingNaN f)) ∧
    (t.fpsr.getLsbD 4 = true ↔ s.fpsr.getLsbD 4 = true ∨ (exactOf i = true ∧
      SomeActive f i.operands s fun x =>
        IsFinite f x ∧ (¬ ∃ n : ℤ, fpToRat f x = n) ∧ ¬ (IsDenormal f x ∧ fpFlushes f s.fpcrValue = true))) ∧
    (t.fpsr.getLsbD 7 = true ↔ s.fpsr.getLsbD 7 = true ∨ (f ≠ .half ∧ fpcrFZ s.fpcrValue = true ∧
      fpcrAH s.fpcrValue = false ∧ SomeActive f i.operands s (IsDenormal f)))

/-- Along every run, however long: the configuration, `FPCR`, every predicate register and memory never change, `pc` has
advanced by 4 per step, and a cumulative bit of `FPSR` once 1 stays 1 (R35, R41, R139). -/
def Obligations.RunsKeepControlStateAndStickyFlags : Prop :=
  ∀ (k : Nat) (s t : State), Host.Core.run Sys2Proof.core k s = .next t →
    t.cfg = s.cfg ∧ t.fpcr = s.fpcr ∧ (∀ j : Fin 16, (t.p.get j).toNat = (s.p.get j).toNat) ∧ t.mem = s.mem ∧
    t.pc = s.pc + BitVec.ofNat 64 (4 * k) ∧ t.fpsr &&& s.fpsr = s.fpsr

/-! ## What an instruction does not depend on -/

/-- The classes N, A, M, P, Z do not depend on `FPCR.RMode`: with `FPCR` changed in bits 23:22 only, the outcome is the same
(R106). -/
def Obligations.FixedRoundingIgnoresRMode : Prop :=
  ∀ (i : Instr) (s : State) (v : BitVec 64), fixedRounding i →
    v &&& ~~~0x00C00000#64 = s.fpcr &&& ~~~0x00C00000#64 →
    (∀ t, exec i s = .next t → exec i { s with fpcr := v } = .next { t with fpcr := v }) ∧
    (∀ x, exec i s = .fault x → exec i { s with fpcr := v } = .fault x)

/-- R84: an element is active exactly when bit `e * (esize DIV 8)` of the mask is 1, and no instruction looks at any other
bit of its predicate: with `P[g]` replaced by a mask that agrees on those bits the outcome is the same. -/
def Obligations.PredicateIsReadAtLowestBitsOnly : Prop :=
  (∀ (n : Nat) (mask : BitVec n) (e : Nat) (f : Fmt), activeElement mask e f = mask.getLsbD (e * (f.bits / 8))) ∧
  ∀ (i : Instr) (s : State) (m : BitVec (s.cfg.vl / 8)),
    (∀ f e, sizeFmt i.operands.size = some f → e < elementCount s.cfg.vl f →
      m.getLsbD (e * (f.bits / 8)) = (s.readP i.operands.pg).getLsbD (e * (f.bits / 8))) →
    (∀ t, exec i s = .next t → ∃ v flags, t = ((s.writeZ i.operands.zd v).accumulateFPSR flags).advancePc ∧
      exec i (setP s i.operands.pg m) =
        .next ((((setP s i.operands.pg m).writeZ i.operands.zd v).accumulateFPSR flags).advancePc)) ∧
    (∀ x, exec i s = .fault x → exec i (setP s i.operands.pg m) = .fault x)

/-- Inactive elements of the source are never looked at: with `Z[n]` (not the destination) replaced by a vector that agrees
on the active elements, the destination, the flags and the outcome are the same (R86, R105). -/
def Obligations.InactiveSourceElementsHaveNoInfluence : Prop :=
  ∀ (i : Instr) (s : State) (x : BitVec s.cfg.vl), i.operands.zn ≠ i.operands.zd →
    (∀ f e, sizeFmt i.operands.size = some f → Active f i.operands s e →
      element f x e = element f (s.readZ i.operands.zn) e) →
    (∀ t, exec i s = .next t → ∃ v flags, t = ((s.writeZ i.operands.zd v).accumulateFPSR flags).advancePc ∧
      exec i (s.writeZ i.operands.zn x) =
        .next ((((s.writeZ i.operands.zn x).writeZ i.operands.zd v).accumulateFPSR flags).advancePc)) ∧
    (∀ r, exec i s = .fault r → exec i (s.writeZ i.operands.zn x) = .fault r)

/-- The zeroing forms do not read the old `Z[d]`: with any other value in it beforehand (and `Z[d]` not the source) the whole
outcome is the same (R43, last sentences). -/
def Obligations.ZeroingFormsIgnoreTheOldDestination : Prop :=
  ∀ (i : Instr) (s : State) (x : BitVec s.cfg.vl), i.isMerging = false → i.operands.zn ≠ i.operands.zd →
    exec i (s.writeZ i.operands.zd x) = exec i s

/-- With no active element a merging form only advances `pc`; a zeroing form also sets the whole of `Z[d]` to zero; no flag
is set (the corner cases of R110 to R123, vectors V1a, V2b, V2c, V4a, V4b). -/
def Obligations.NoActiveElementCornerCase : Prop :=
  ∀ (i : Instr) (s : State) (f : Fmt), featureOf i s = true → sizeFmt i.operands.size = some f →
    s.cfg.sveCheck = .ok → (∀ e, ¬ Active f i.operands s e) →
    exec i s = .next (if i.isMerging then s.advancePc else (s.writeZ i.operands.zd 0).advancePc)

/-- R85: `AnyActiveElement` is TRUE exactly when some element is active, and reading `Z[n]` unconditionally gives the same
result and the same flags. -/
def Obligations.ConditionalSourceReadIsNotObservable : Prop :=
  (∀ (vl n : Nat) (mask : BitVec n) (f : Fmt), anyActiveElement vl mask f = true ↔
    ∃ e, e < elementCount vl f ∧ activeElement mask e f = true) ∧
  ∀ (F : FPRoundIntFn) (f : Fmt) (rounding : FPRounding) (exact merging : Bool) (o : Operands) (s : State),
    frintResult F f rounding exact merging o s =
      roundLoop F f s.fpcrValue rounding exact (s.readP o.pg) (s.readZ o.zn) (frintInit merging o s)
        (elementCount s.cfg.vl f) ∧
    frintFlags F f rounding exact o s =
      flagLoop F f s.fpcrValue rounding exact (s.readP o.pg) (s.readZ o.zn) (elementCount s.cfg.vl f)

/-- Option X is option I plus the signal Inexact: where both forms of one operand complete, the results agree in everything
but `FPSR.IXC`, which I leaves alone (R98, the corner cases of R112 and R113). -/
def Obligations.OptionXIsOptionIPlusInexact : Prop :=
  ∀ (o : Operands) (s t u : State),
    (exec (.frintxM o) s = .next t ∧ exec (.frintiM o) s = .next u) ∨
    (exec (.frintxZ o) s = .next t ∧ exec (.frintiZ o) s = .next u) →
    t = { u with fpsr := t.fpsr } ∧ t.fpsr ||| 0x10#64 = u.fpsr ||| 0x10#64 ∧
      u.fpsr.getLsbD 4 = s.fpsr.getLsbD 4

/-! ## One element: `FPRoundInt` -/

/-- R31: `FPRoundingMode` follows `RMode`, bits 23:22, and never answers ties-away. -/
def Obligations.RoundingModeFollowsRMode : Prop :=
  ∀ v : BitVec 64,
    (v.extractLsb' 22 2 = 0b00#2 → fpRoundingMode v = .tieEven) ∧
    (v.extractLsb' 22 2 = 0b01#2 → fpRoundingMode v = .posInf) ∧
    (v.extractLsb' 22 2 = 0b10#2 → fpRoundingMode v = .negInf) ∧
    (v.extractLsb' 22 2 = 0b11#2 → fpRoundingMode v = .zero) ∧ fpRoundingMode v ≠ .tieAway

/-- The bit-level form R99 is the reference instance, for every format, operand, `FPCR`, rounding and `exact`. -/
def Obligations.BitLevelFormIsTheRealNumberForm : Prop :=
  ∀ (f : Fmt) (op : BitVec f.bits) (fpcr : BitVec 64) (rounding : FPRounding) (exact : Bool),
    fpRoundIntValue f op fpcr rounding exact = fpRoundIntBitsValue f op fpcr rounding ∧
    fpRoundIntFlags f op fpcr rounding exact = fpRoundIntBitsFlags f op fpcr exact

/-- R96, R97: a nonzero operand of real value `v` becomes the datum whose value is exactly the integer R96 names: it is
finite, never denormal, of the operand's sign; a zero result is the zero of that sign; an operand that is an integer already
is returned unchanged; without `exact` nothing is signalled. -/
def Obligations.NonzeroOperandsRoundToTheNamedInteger : Prop :=
  ∀ (f : Fmt) (op : BitVec f.bits) (fpcr : BitVec 64) (rounding : FPRounding) (exact : Bool),
    fpClassify f op fpcr = .nonzero →
    IsFinite f (fpRoundIntValue f op fpcr rounding exact) ∧
    fpToRat f (fpRoundIntValue f op fpcr rounding exact) = (roundRat rounding (fpToRat f op) : ℚ) ∧
    fpSign f (fpRoundIntValue f op fpcr rounding exact) = fpSign f op ∧
    ¬ IsDenormal f (fpRoundIntValue f op fpcr rounding exact) ∧
    (roundRat rounding (fpToRat f op) = 0 → fpRoundIntValue f op fpcr rounding exact = fpZero f (fpSign f op)) ∧
    ((∃ n : ℤ, fpToRat f op = n) → fpRoundIntValue f op fpcr rounding exact = op) ∧
    fpRoundIntFlags f op fpcr rounding false = .none

/-- R98: for a nonzero operand Inexact is signalled exactly when `exact` is TRUE and the operand is not an integer, which is
the same as the result differing in value from the operand; nothing else is signalled. -/
def Obligations.InexactExactlyWhenNotIntegral : Prop :=
  ∀ (f : Fmt) (op : BitVec f.bits) (fpcr : BitVec 64) (rounding : FPRounding) (exact : Bool),
    fpClassify f op fpcr = .nonzero →
    ((fpRoundIntFlags f op fpcr rounding exact).inexact = true ↔ exact = true ∧ ¬ ∃ n : ℤ, fpToRat f op = n) ∧
    ((¬ ∃ n : ℤ, fpToRat f op = n) ↔ fpToRat f (fpRoundIntValue f op fpcr rounding exact) ≠ fpToRat f op) ∧
    (fpRoundIntFlags f op fpcr rounding exact).invalidOp = false ∧
    (fpRoundIntFlags f op fpcr rounding exact).inputDenorm = false

/-- R94: an infinity is returned unchanged and signals nothing; a zero gives the zero of its sign and signals nothing; a NaN
goes to `FPProcessNaN` and never signals Inexact. -/
def Obligations.InfinitiesAndZerosPassThrough : Prop :=
  ∀ (f : Fmt) (op : BitVec f.bits) (fpcr : BitVec 64) (rounding : FPRounding) (exact : Bool),
    (fpExp f op = f.expMax → fpFrac f op = 0 →
      fpRoundIntValue f op fpcr rounding exact = op ∧ fpRoundIntFlags f op fpcr rounding exact = .none) ∧
    (fpExp f op = 0 → fpFrac f op = 0 →
      fpRoundIntValue f op fpcr rounding exact = op ∧ op = fpZero f (fpSign f op) ∧
        fpRoundIntFlags f op fpcr rounding exact = .none) ∧
    (IsNaN f op → fpRoundIntValue f op fpcr rounding exact = fpProcessNaN f op fpcr ∧
      (fpRoundIntFlags f op fpcr rounding exact).inexact = false)

/-- R95: a denormal of half precision is flushed exactly when `FZ16 = 1`, of single or double precision exactly when `FZ = 1`
with `AH = 0`, or `FIZ = 1`. A flushed one gives the zero of its sign and signals Input Denormal exactly for single or double
with `FZ = 1` and `AH = 0`, and nothing else; one that is not flushed is an ordinary nonzero value of magnitude below
`2^(1-bias)`, so below 1/2.
`AH` and `FIZ` read as 0 without `HaveAFP`. -/
def Obligations.DenormalsAreFlushedExactlyWhen : Prop :=
  (∀ (f : Fmt) (op : BitVec f.bits) (fpcr : BitVec 64) (rounding : FPRounding) (exact : Bool), IsDenormal f op →
    (if (f = .half ∧ fpcrFZ16 fpcr = true) ∨
        (f ≠ .half ∧ ((fpcrFZ fpcr = true ∧ fpcrAH fpcr = false) ∨ fpcrFIZ fpcr = true)) then
      fpRoundIntValue f op fpcr rounding exact = fpZero f (fpSign f op) ∧
      fpRoundIntFlags f op fpcr rounding exact =
        { inputDenorm := decide (f ≠ .half ∧ fpcrFZ fpcr = true ∧ fpcrAH fpcr = false) }
    else fpClassify f op fpcr = .nonzero ∧ 0 < |fpToRat f op| ∧ |fpToRat f op| < 2 ^ (1 - (f.bias : ℤ)) ∧
      |fpToRat f op| < 1 / 2)) ∧
  ∀ s : State, s.cfg.haveAFP = false → fpcrAH s.fpcrValue = false ∧ fpcrFIZ s.fpcrValue = false

/-- R100, R101: a NaN is returned with fraction bit `F-1` set, or as the default NaN if `DN = 1`; Invalid Operation is
signalled exactly for a signalling NaN, with `DN` either way, and nothing else is; the default NaNs have the values R101
lists, of sign `AH`, which reads as 0 without `HaveAFP`. -/
def Obligations.NaNsAreProcessed : Prop :=
  (∀ (f : Fmt) (op : BitVec f.bits) (fpcr : BitVec 64) (rounding : FPRounding) (exact : Bool), IsNaN f op →
    (fpcrDN fpcr = true → fpRoundIntValue f op fpcr rounding exact = fpDefaultNaN f fpcr) ∧
    (fpcrDN fpcr = false → ∀ j, (fpRoundIntValue f op fpcr rounding exact).getLsbD j =
      (decide (j = f.fracBits - 1) || op.getLsbD j)) ∧
    fpRoundIntFlags f op fpcr rounding exact = { invalidOp := !op.getLsbD (f.fracBits - 1) }) ∧
  (∀ fpcr : BitVec 64, fpcrAH fpcr = false →
    fpDefaultNaN .half fpcr = 0x7E00#16 ∧ fpDefaultNaN .single fpcr = 0x7FC00000#32 ∧
    fpDefaultNaN .double fpcr = 0x7FF8000000000000#64) ∧
  (∀ fpcr : BitVec 64, fpcrAH fpcr = true →
    fpDefaultNaN .half fpcr = 0xFE00#16 ∧ fpDefaultNaN .single fpcr = 0xFFC00000#32 ∧
    fpDefaultNaN .double fpcr = 0xFFF8000000000000#64) ∧
  ∀ s : State, s.cfg.haveAFP = false → fpcrAH s.fpcrValue = false

/-- R104 (a), (b): the result of an operand that is not a NaN has the operand's sign and is an infinity or an integer. -/
def Obligations.ResultIsIntegralWithTheOperandsSign : Prop :=
  ∀ (f : Fmt) (op : BitVec f.bits) (fpcr : BitVec 64) (rounding : FPRounding) (exact : Bool), ¬ IsNaN f op →
    fpSign f (fpRoundIntValue f op fpcr rounding exact) = fpSign f op ∧
    ((fpExp f (fpRoundIntValue f op fpcr rounding exact) = f.expMax ∧
      fpFrac f (fpRoundIntValue f op fpcr rounding exact) = 0) ∨
     (IsFinite f (fpRoundIntValue f op fpcr rounding exact) ∧
      ∃ n : ℤ, fpToRat f (fpRoundIntValue f op fpcr rounding exact) = n))

/-- R104 (c): rounding twice is rounding once, and the second time signals nothing. -/
def Obligations.RoundingIsIdempotent : Prop :=
  ∀ (f : Fmt) (op : BitVec f.bits) (fpcr : BitVec 64) (rounding : FPRounding) (exact : Bool),
    fpRoundIntValue f (fpRoundIntValue f op fpcr rounding exact) fpcr rounding exact =
      fpRoundIntValue f op fpcr rounding exact ∧
    fpRoundIntFlags f (fpRoundIntValue f op fpcr rounding exact) fpcr rounding exact = .none

/-- R104 (d): rounding is monotone on finite operands. -/
def Obligations.RoundingIsMonotone : Prop :=
  ∀ (f : Fmt) (a b : BitVec f.bits) (fpcr : BitVec 64) (rounding : FPRounding) (exact : Bool),
    IsFinite f a → IsFinite f b → fpToRat f a ≤ fpToRat f b →
    fpToRat f (fpRoundIntValue f a fpcr rounding exact) ≤ fpToRat f (fpRoundIntValue f b fpcr rounding exact)

/-- R104 (e): the result of a finite operand is less than 1 away from it, at most 1/2 for the two nearest modes. -/
def Obligations.RoundingErrorIsBelowOne : Prop :=
  ∀ (f : Fmt) (op : BitVec f.bits) (fpcr : BitVec 64) (rounding : FPRounding) (exact : Bool), IsFinite f op →
    |fpToRat f (fpRoundIntValue f op fpcr rounding exact) - fpToRat f op| < 1 ∧
    (rounding = .tieEven ∨ rounding = .tieAway →
      |fpToRat f (fpRoundIntValue f op fpcr rounding exact) - fpToRat f op| ≤ 1 / 2)

/-- R104 (f): of `FPCR` the rounding function uses only DN, FZ, FZ16, AH, FIZ (bits 25, 24, 19, 1, 0); RMode among others is
irrelevant to it. -/
def Obligations.ScalarUsesFiveFieldsOfFpcr : Prop :=
  ∀ (f : Fmt) (op : BitVec f.bits) (u v : BitVec 64) (rounding : FPRounding) (exact : Bool),
    u &&& 0x03080003#64 = v &&& 0x03080003#64 →
    fpRoundIntValue f op u rounding exact = fpRoundIntValue f op v rounding exact ∧
    fpRoundIntFlags f op u rounding exact = fpRoundIntFlags f op v rounding exact

/-! ## Invariants and runs -/

/-- Every step keeps the invariant: the text stays, `pc` stays at a word of the text or its end and a multiple of 4, the
reserved fields of `FPCR` and `FPSR` stay zero (R21, R45, R146, U17). -/
def Obligations.StepKeepsTheInvariant : Prop := ∀ s t : State, RunInv s → step s = .next t → RunInv t

/-- The reset state, at the values the log chooses (log 1 to 5), meets the invariant. -/
def Obligations.ResetMeetsTheInvariant : Prop := RunInv State.reset

/-- Every launch state meets the invariant (R145). -/
def Obligations.LaunchStatesMeetTheInvariant : Prop := ∀ s : State, Launch s → RunInv s

/-- In a state of a run, `pc` is never outside the text and never misaligned; the step is refused as the end of the run (the
model's choice of outcome, log 7) exactly in a final state, and a refusal elsewhere is of a word outside the group (R49,
R146). -/
def Obligations.PcNeverLeavesTheText : Prop :=
  ∀ s : State, RunInv s →
    (step s = .refused (.endOfRun s.pc) ↔ s.isFinal = true) ∧
    ∀ r, step s = .refused r → s.isFinal = false →
      ∃ w, r = .notInGroup s.pc w ∨ r = .selectorNotDescribed s.pc w

/-- Every run ends within the length of its text: after as many steps as the text has words the state is final, and no run
makes more (R146, last sentence). -/
def Obligations.RunsEndWithinTheTextLength : Prop :=
  ∀ s : State, Launch s →
    (∀ t : State, Host.Core.run Sys2Proof.core s.len s = .next t → t.isFinal = true) ∧
    (∀ (k : Nat) (t : State), s.len < k → Host.Core.run Sys2Proof.core k s ≠ .next t)

/-- A text of well-formed instructions of the group, launched with all features implemented, the access check passing and no
floating-point trap support, ends normally: no fault and no refusal on the way (R138, R144 to R146). -/
def Obligations.TextsOfTheGroupEndNormally : Prop :=
  ∀ s : State, Launch s → s.mergingFeature = true → s.zeroingFeature = true → s.cfg.sveCheck = .ok →
    s.cfg.fpTrapSupport = false →
    (∀ k, k < s.len → ∃ i : Instr, i.wf = true ∧ WordAt s.mem (s.entry + 4 * k) (encode i)) → EndsNormally s
end

