-- ==== Sys2Proof/Laws/Memory.lean ====
section
/-! SUPPORT. The laws of instruction memory: every operation keeps the canonical form; a written byte reads back; every
other address reads as before. -/

namespace Sys2Proof.Machine

/-- A rising list may be taken to rise from any lower bound. -/
theorem Memory.risingFrom_mono {lo lo' : Nat} {m : Memory} (h : lo' ≤ lo) (hm : Memory.risingFrom lo m = true) :
    Memory.risingFrom lo' m = true := by
  cases m with
  | nil => rfl
  | cons c rest =>
    obtain ⟨a, v⟩ := c
    simp only [Memory.risingFrom, Bool.and_eq_true, decide_eq_true_eq] at hm ⊢
    exact ⟨⟨by omega, hm.1.2⟩, hm.2⟩

/-- Placing a byte keeps the list rising. -/
theorem Memory.write_risingFrom {lo a : Nat} {m : Memory} (v : Byte) (hm : Memory.risingFrom lo m = true)
    (hlo : lo ≤ a) (ha : a < 2 ^ 64) : Memory.risingFrom lo (Memory.write m a v) = true := by
  induction m generalizing lo with
  | nil => simp [Memory.write, Memory.risingFrom]; omega
  | cons c rest ih =>
    obtain ⟨b, u⟩ := c
    simp only [Memory.risingFrom, Bool.and_eq_true, decide_eq_true_eq] at hm
    obtain ⟨⟨h1, h2⟩, h3⟩ := hm
    unfold Memory.write
    split
    · simp only [Memory.risingFrom, Bool.and_eq_true, decide_eq_true_eq]
      exact ⟨⟨hlo, ha⟩, ⟨⟨by omega, h2⟩, h3⟩⟩
    · split
      · subst a
        simp only [Memory.risingFrom, Bool.and_eq_true, decide_eq_true_eq]
        exact ⟨⟨h1, h2⟩, h3⟩
      · simp only [Memory.risingFrom, Bool.and_eq_true, decide_eq_true_eq]
        exact ⟨⟨h1, h2⟩, ih h3 (by omega)⟩

/-- Placing a byte at a 64-bit address keeps the canonical form. -/
theorem Memory.write_wf {a : Nat} {m : Memory} (v : Byte) (hm : m.wf = true) (ha : a < 2 ^ 64) :
    (Memory.write m a v).wf = true :=
  Memory.write_risingFrom v hm (Nat.zero_le a) ha

/-- Placing bytes below the top of the address space keeps the canonical form. -/
theorem Memory.writeBytes_wf {bytes : List Byte} {a : Nat} {m : Memory} (hm : m.wf = true)
    (ha : a + bytes.length ≤ 2 ^ 64) : (Memory.writeBytes m a bytes).wf = true := by
  induction bytes generalizing m a with
  | nil => exact hm
  | cons b rest ih =>
    simp only [List.length_cons] at ha
    exact ih (Memory.write_wf b hm (by omega)) (by omega)

/-- A placed byte reads back. -/
theorem Memory.read_write_same (m : Memory) (a : Nat) (v : Byte) : Memory.read (Memory.write m a v) a = some v := by
  induction m with
  | nil => simp [Memory.write, Memory.read]
  | cons c rest ih =>
    obtain ⟨b, u⟩ := c
    unfold Memory.write
    split
    · simp [Memory.read]
    · split
      · simp [Memory.read]
      · rename_i h2
        simp only [Memory.read, if_neg h2]
        exact ih

/-- Every other address reads as before. -/
theorem Memory.read_write_other (m : Memory) {a b : Nat} (v : Byte) (h : b ≠ a) :
    Memory.read (Memory.write m a v) b = Memory.read m b := by
  induction m with
  | nil => simp [Memory.write, Memory.read, h]
  | cons c rest ih =>
    obtain ⟨d, u⟩ := c
    unfold Memory.write
    split
    · simp [Memory.read, h]
    · split
      · rename_i h1
        subst h1
        simp [Memory.read, h]
      · simp only [Memory.read]
        split
        · rfl
        · exact ih

/-- An address below the ones written reads as before. -/
theorem Memory.read_writeBytes_below {bytes : List Byte} {m : Memory} {a b : Nat} (h : b < a) :
    Memory.read (Memory.writeBytes m a bytes) b = Memory.read m b := by
  induction bytes generalizing m a with
  | nil => rfl
  | cons v rest ih =>
    simp only [Memory.writeBytes]
    rw [ih (by omega), Memory.read_write_other m v (by omega)]

/-- The reset memory has the canonical form. -/
theorem State.reset_mem_wf : State.reset.mem.wf = true := rfl

/-- Loading a word at an aligned `pc` keeps the canonical form. -/
theorem State.loadWordAtPc_wf {s : State} (w : Word) (hm : s.mem.wf = true) (hp : s.pcAligned = true) :
    (s.loadWordAtPc w).mem.wf = true := by
  have h1 : s.pc.toNat % 4 = 0 := by simpa [State.pcAligned] using hp
  have h2 := s.pc.isLt
  have h3 : (bytesOfWord w).length = 4 := rfl
  exact Memory.writeBytes_wf hm (by omega)

end Sys2Proof.Machine
end

