-- ==== Sys2Proof/Laws/Operands.lean ====
section
/-! SUPPORT. The laws of elements and predicates: what a bit of an element is, which bits an element write replaces (R11),
when some element is active (R85). -/

namespace Sys2Proof.Machine

/-- Bit `i` of element `e` is bit `e * esize + i` of the vector (R11). -/
theorem getLsbD_element {n : Nat} (f : Fmt) (x : BitVec n) (e i : Nat) :
    (element f x e).getLsbD i = (decide (i < f.bits) && x.getLsbD (e * f.bits + i)) := by
  simp [element, BitVec.getLsbD_extractLsb']

/-- An element write replaces exactly the bits of that element (R11). -/
theorem getLsbD_setElement {n : Nat} (f : Fmt) (x : BitVec n) (e : Nat) (v : BitVec f.bits) (i : Nat) (hi : i < n) :
    (setElement f x e v).getLsbD i =
      if e * f.bits ≤ i ∧ i < (e + 1) * f.bits then v.getLsbD (i - e * f.bits) else x.getLsbD i := by
  have hs : (e + 1) * f.bits = e * f.bits + f.bits := by rw [Nat.add_mul, Nat.one_mul]
  rw [hs]
  simp only [setElement, BitVec.getLsbD_or, BitVec.getLsbD_and, BitVec.getLsbD_not, BitVec.getLsbD_shiftLeft,
    BitVec.getLsbD_setWidth, BitVec.getLsbD_allOnes, hi, decide_true, Bool.true_and]
  by_cases h1 : i < e * f.bits
  · have h2 : ¬ (e * f.bits ≤ i) := by omega
    simp [h1, h2]
  · have h2 : e * f.bits ≤ i := by omega
    have h4 : i - e * f.bits < n := by omega
    by_cases h3 : i < e * f.bits + f.bits
    · have h5 : i - e * f.bits < f.bits := by omega
      simp [h1, h2, h3, h4, h5]
    · have h5 : ¬ (i - e * f.bits < f.bits) := by omega
      have h6 : v.getLsbD (i - e * f.bits) = false := BitVec.getLsbD_of_ge v _ (by omega)
      simp [h1, h3, h4, h5, h6]

/-- Some element below `count` is active exactly when one is (R85). -/
theorem anyActiveBelow_iff {n : Nat} (mask : BitVec n) (f : Fmt) (count : Nat) :
    anyActiveBelow mask f count = true ↔ ∃ e, e < count ∧ activeElement mask e f = true := by
  induction count with
  | zero => simp [anyActiveBelow]
  | succ c ih =>
    simp only [anyActiveBelow, Bool.or_eq_true, ih]
    constructor
    · rintro (⟨e, he, ha⟩ | ha)
      · exact ⟨e, by omega, ha⟩
      · exact ⟨c, by omega, ha⟩
    · rintro ⟨e, he, ha⟩
      rcases Nat.lt_succ_iff_lt_or_eq.mp he with h | rfl
      · exact .inl ⟨e, h, ha⟩
      · exact .inr ha

/-- Elements below the element count lie inside the vector. -/
theorem element_inside {vl e : Nat} (f : Fmt) (h : e < elementCount vl f) : (e + 1) * f.bits ≤ vl := by
  have h1 : e + 1 ≤ vl / f.bits := h
  calc (e + 1) * f.bits ≤ vl / f.bits * f.bits := Nat.mul_le_mul_right _ h1
    _ ≤ vl := Nat.div_mul_le_self _ _

end Sys2Proof.Machine
end

