-- ==== Sys2Proof/Laws/State.lean ====
section
/-! SUPPORT. One lemma per field per update of the state, true by rfl, and the read-after-write laws of the vector
registers. No later proof unfolds a record update. -/

namespace Sys2Proof.Machine

/-! ## `State.writeZ` -/

@[simp] theorem State.writeZ_cfg (s : State) (d : ZReg) (v : BitVec s.cfg.vl) : (s.writeZ d v).cfg = s.cfg := rfl
@[simp] theorem State.writeZ_pc (s : State) (d : ZReg) (v : BitVec s.cfg.vl) : (s.writeZ d v).pc = s.pc := rfl
@[simp] theorem State.writeZ_z (s : State) (d : ZReg) (v : BitVec s.cfg.vl) :
    (s.writeZ d v).z = s.z.set d.val v d.isLt := rfl
@[simp] theorem State.writeZ_p (s : State) (d : ZReg) (v : BitVec s.cfg.vl) : (s.writeZ d v).p = s.p := rfl
@[simp] theorem State.writeZ_fpcr (s : State) (d : ZReg) (v : BitVec s.cfg.vl) : (s.writeZ d v).fpcr = s.fpcr := rfl
@[simp] theorem State.writeZ_fpsr (s : State) (d : ZReg) (v : BitVec s.cfg.vl) : (s.writeZ d v).fpsr = s.fpsr := rfl
@[simp] theorem State.writeZ_mem (s : State) (d : ZReg) (v : BitVec s.cfg.vl) : (s.writeZ d v).mem = s.mem := rfl
@[simp] theorem State.writeZ_freeSeed (s : State) (d : ZReg) (v : BitVec s.cfg.vl) :
    (s.writeZ d v).freeSeed = s.freeSeed := rfl
@[simp] theorem State.writeZ_readP (s : State) (d : ZReg) (v : BitVec s.cfg.vl) (g : PReg) :
    (s.writeZ d v).readP g = s.readP g := rfl
@[simp] theorem State.writeZ_fpcrValue (s : State) (d : ZReg) (v : BitVec s.cfg.vl) :
    (s.writeZ d v).fpcrValue = s.fpcrValue := rfl

/-- A written vector register reads back as what was written (R25). -/
theorem State.readZ_writeZ_same (s : State) (d : ZReg) (v : BitVec s.cfg.vl) : (s.writeZ d v).readZ d = v := by
  simp [State.readZ, State.writeZ, Vector.get_eq_getElem]

/-- The other vector registers are left alone (R41). -/
theorem State.readZ_writeZ_other (s : State) (d n : ZReg) (v : BitVec s.cfg.vl) (h : n ≠ d) :
    (s.writeZ d v).readZ n = s.readZ n := by
  have h' : d.val ≠ n.val := fun e => h (Fin.ext e.symm)
  simp [State.readZ, State.writeZ, Vector.get_eq_getElem, Vector.getElem_set_ne, h']

/-- Writing a register twice is writing it once. -/
theorem State.writeZ_writeZ (s : State) (d : ZReg) (u v : BitVec s.cfg.vl) :
    (s.writeZ d u).writeZ d v = s.writeZ d v := by
  simp only [State.writeZ]
  congr 1
  exact Vector.set_set ..

/-- Writing back what a register holds changes nothing. -/
theorem State.writeZ_readZ (s : State) (d : ZReg) : s.writeZ d (s.readZ d) = s := by
  obtain ⟨cfg, pc, z, p, fpcr, fpsr, mem, seed⟩ := s
  simp [State.writeZ, State.readZ, Vector.get_eq_getElem]

/-! ## `State.accumulateFPSR` -/

@[simp] theorem State.accumulateFPSR_cfg (s : State) (a : FPExcSet) : (s.accumulateFPSR a).cfg = s.cfg := rfl
@[simp] theorem State.accumulateFPSR_pc (s : State) (a : FPExcSet) : (s.accumulateFPSR a).pc = s.pc := rfl
@[simp] theorem State.accumulateFPSR_z (s : State) (a : FPExcSet) : (s.accumulateFPSR a).z = s.z := rfl
@[simp] theorem State.accumulateFPSR_p (s : State) (a : FPExcSet) : (s.accumulateFPSR a).p = s.p := rfl
@[simp] theorem State.accumulateFPSR_fpcr (s : State) (a : FPExcSet) : (s.accumulateFPSR a).fpcr = s.fpcr := rfl
@[simp] theorem State.accumulateFPSR_fpsr (s : State) (a : FPExcSet) :
    (s.accumulateFPSR a).fpsr = fpsrAccumulate s.fpsr a := rfl
@[simp] theorem State.accumulateFPSR_mem (s : State) (a : FPExcSet) : (s.accumulateFPSR a).mem = s.mem := rfl
@[simp] theorem State.accumulateFPSR_freeSeed (s : State) (a : FPExcSet) :
    (s.accumulateFPSR a).freeSeed = s.freeSeed := rfl

/-! ## `State.advancePc` -/

@[simp] theorem State.advancePc_cfg (s : State) : s.advancePc.cfg = s.cfg := rfl
@[simp] theorem State.advancePc_pc (s : State) : s.advancePc.pc = s.pc + 4#64 := rfl
@[simp] theorem State.advancePc_z (s : State) : s.advancePc.z = s.z := rfl
@[simp] theorem State.advancePc_p (s : State) : s.advancePc.p = s.p := rfl
@[simp] theorem State.advancePc_fpcr (s : State) : s.advancePc.fpcr = s.fpcr := rfl
@[simp] theorem State.advancePc_fpsr (s : State) : s.advancePc.fpsr = s.fpsr := rfl
@[simp] theorem State.advancePc_mem (s : State) : s.advancePc.mem = s.mem := rfl
@[simp] theorem State.advancePc_freeSeed (s : State) : s.advancePc.freeSeed = s.freeSeed := rfl

/-! ## `State.loadWordAtPc` -/

@[simp] theorem State.loadWordAtPc_cfg (s : State) (w : Word) : (s.loadWordAtPc w).cfg = s.cfg := rfl
@[simp] theorem State.loadWordAtPc_pc (s : State) (w : Word) : (s.loadWordAtPc w).pc = s.pc := rfl
@[simp] theorem State.loadWordAtPc_z (s : State) (w : Word) : (s.loadWordAtPc w).z = s.z := rfl
@[simp] theorem State.loadWordAtPc_p (s : State) (w : Word) : (s.loadWordAtPc w).p = s.p := rfl
@[simp] theorem State.loadWordAtPc_fpcr (s : State) (w : Word) : (s.loadWordAtPc w).fpcr = s.fpcr := rfl
@[simp] theorem State.loadWordAtPc_fpsr (s : State) (w : Word) : (s.loadWordAtPc w).fpsr = s.fpsr := rfl
@[simp] theorem State.loadWordAtPc_mem (s : State) (w : Word) :
    (s.loadWordAtPc w).mem = Memory.writeBytes s.mem s.pc.toNat (bytesOfWord w) := rfl
@[simp] theorem State.loadWordAtPc_freeSeed (s : State) (w : Word) : (s.loadWordAtPc w).freeSeed = s.freeSeed := rfl

end Sys2Proof.Machine
end

