-- ==== Sys2Proof/Laws/Ops.lean ====
section
/-! SUPPORT. One lemma per shared operation that says what it can do: taking an exception, the report of a trap, the
accumulation of flags, the shared operation of the group, exec, step. -/

namespace Sys2Proof.Machine

/-- Taking an exception always faults, records the pc and the word, and never completes (R126, R134). -/
theorem takeException_faults (c : Exc) (w : Word) (s : State) :
    ∃ x, takeException c w s = .fault x ∧ x.pc = s.pc ∧ x.word = w := by
  cases c <;> exact ⟨_, rfl, rfl, rfl⟩

/-- A reported set holds an enabled signalled exception whenever there is one (R129). -/
theorem trapReport_holds_enabled (free enabled : FPExcSet) (h : enabled.isEmpty = false) :
    ((trapReport free enabled).inter enabled).isEmpty = false := by
  obtain ⟨a, b, c⟩ := free
  obtain ⟨a', b', c'⟩ := enabled
  revert h
  cases a <;> cases b <;> cases c <;> cases a' <;> cases b' <;> cases c' <;> decide

/-- Every set within the bound of R129 is the report of some free set. -/
theorem trapReport_reaches_every_set (set enabled : FPExcSet) (h : (set.inter enabled).isEmpty = false) :
    trapReport set enabled = set := by
  simp [trapReport, h]

/-- Accumulating flags never clears a bit (R35). -/
theorem fpsrAccumulate_keeps (v : BitVec 64) (a : FPExcSet) : v &&& fpsrAccumulate v a = v := by
  ext i hi
  simp only [fpsrAccumulate, BitVec.getElem_and, BitVec.getElem_or]
  cases v[i] <;> simp

/-- Accumulating flags touches only `IOC`, `IXC` and `IDC` (R34). -/
theorem fpsrAccumulate_frame (v : BitVec 64) (a : FPExcSet) :
    fpsrAccumulate v a &&& ~~~fpsrGroupBits = v &&& ~~~fpsrGroupBits := by
  have h : a.fpsrBits &&& ~~~fpsrGroupBits = 0#64 := by
    obtain ⟨x, y, z⟩ := a
    cases x <;> cases y <;> cases z <;> decide
  rw [fpsrAccumulate, BitVec.and_comm, BitVec.and_or_distrib_left, BitVec.and_comm _ a.fpsrBits, h, BitVec.or_zero,
    BitVec.and_comm]

/-- What the operation block can do: complete by the write-back, or take the trapped exception. -/
theorem frintOperation_cases (F : FPRoundIntFn) (f : Fmt) (rounding : FPRounding) (exact merging : Bool) (w : Word)
    (o : Operands) (s : State) :
    ((frintTraps F f rounding exact o s).isEmpty = true ∧ frintOperation F f rounding exact merging w o s =
      .next (frintWriteBack o.zd s (frintResult F f rounding exact merging o s) (frintFlags F f rounding exact o s))) ∨
    ((frintTraps F f rounding exact o s).isEmpty = false ∧ frintOperation F f rounding exact merging w o s =
      takeException (.fpTrapped (frintTraps F f rounding exact o s)) w s) := by
  unfold frintOperation
  cases h : (frintTraps F f rounding exact o s).isEmpty
  · exact .inr ⟨rfl, by simp⟩
  · exact .inl ⟨rfl, by simp⟩

/-- The shared meaning, when the features are there, the size exists and the access check passes: the operation block. -/
theorem frint_runs {F : FPRoundIntFn} {feature : Bool} {rounding : FPRounding} {exact merging : Bool} {w : Word}
    {o : Operands} {s : State} {f : Fmt} (hf : feature = true) (hs : sizeFmt o.size = some f)
    (hc : s.cfg.sveCheck = .ok) :
    frint F feature rounding exact merging w o s = frintOperation F f rounding exact merging w o s := by
  simp [frint, hf, hs, hc]

/-- What the shared meaning can do if it answers a next state: all its checks passed, no enabled exception was signalled,
and the state is the write-back (R69 to R72, R81, R87, R129). -/
theorem frint_next {F : FPRoundIntFn} {feature : Bool} {rounding : FPRounding} {exact merging : Bool} {w : Word}
    {o : Operands} {s t : State} (h : frint F feature rounding exact merging w o s = .next t) :
    ∃ f, feature = true ∧ sizeFmt o.size = some f ∧ s.cfg.sveCheck = .ok ∧
      (frintTraps F f rounding exact o s).isEmpty = true ∧
      t = frintWriteBack o.zd s (frintResult F f rounding exact merging o s) (frintFlags F f rounding exact o s) := by
  unfold frint at h
  cases feature with
  | false => cases h
  | true =>
    simp only [Bool.not_true, Bool.false_eq_true, ↓reduceIte] at h
    split at h
    · cases h
    · rename_i f hs
      split at h
      · cases h
      · rename_i hc
        rcases frintOperation_cases F f rounding exact merging w o s with ⟨ht, e⟩ | ⟨_, e⟩
        · rw [e] at h
          cases h
          exact ⟨f, rfl, hs, hc, ht, rfl⟩
        · rw [e] at h
          cases h

/-- The shared meaning never refuses (R138: only a word outside the group is refused). -/
theorem frint_not_refused (F : FPRoundIntFn) (feature : Bool) (rounding : FPRounding) (exact merging : Bool) (w : Word)
    (o : Operands) (s : State) (r : Refusal) : frint F feature rounding exact merging w o s ≠ .refused r := by
  intro h
  unfold frint at h
  split at h
  · cases h
  · split at h
    · cases h
    · rename_i f hs
      split at h
      · cases h
      · rcases frintOperation_cases F f rounding exact merging w o s with ⟨_, e⟩ | ⟨_, e⟩ <;> rw [e] at h <;> cases h

/-- Every instruction is the shared meaning at its decode-time constants: the one place where a proof splits the 14 cases.
The features are those of the form (R71). -/
theorem exec_eq_frint (i : Instr) (s : State) :
    ∃ rounding exact, exec i s = frint fpRoundInt (if i.isMerging then s.mergingFeature else s.zeroingFeature) rounding
      exact i.isMerging (encode i) i.operands s := by
  cases i <;> exact ⟨_, _, rfl⟩

/-- What a step can do if it answers a next state: it fetched an instruction, decoded it and ran it. -/
theorem step_next {s t : State} (h : step s = .next t) :
    ∃ bytes i rest, s.fetch = some bytes ∧ decodeBytes bytes = .ok (i, rest) ∧ exec i s = .next t := by
  unfold step at h
  split at h
  · cases h
  · rename_i bytes hb
    split at h
    · rename_i i rest hd
      exact ⟨bytes, i, rest, hb, hd, h⟩
    · cases h

/-! ## The turns of the loops (R86, R105) -/

/-- A turn at an active element. -/
theorem roundLoop_succ_active {n k : Nat} {F : FPRoundIntFn} {f : Fmt} {fpcr : BitVec 64} {rounding : FPRounding}
    {exact : Bool} {mask : BitVec k} {operand init : BitVec n} {e : Nat} (h : activeElement mask e f = true) :
    roundLoop F f fpcr rounding exact mask operand init (e + 1) =
      setElement f (roundLoop F f fpcr rounding exact mask operand init e) e
        (F.value f (element f operand e) fpcr rounding exact) := by
  simp [roundLoop, h]

/-- A turn at an inactive element. -/
theorem roundLoop_succ_inactive {n k : Nat} {F : FPRoundIntFn} {f : Fmt} {fpcr : BitVec 64} {rounding : FPRounding}
    {exact : Bool} {mask : BitVec k} {operand init : BitVec n} {e : Nat} (h : activeElement mask e f = false) :
    roundLoop F f fpcr rounding exact mask operand init (e + 1) =
      roundLoop F f fpcr rounding exact mask operand init e := by
  simp [roundLoop, h]

/-- A turn of the flag loop at an active element. -/
theorem flagLoop_succ_active {n k : Nat} {F : FPRoundIntFn} {f : Fmt} {fpcr : BitVec 64} {rounding : FPRounding}
    {exact : Bool} {mask : BitVec k} {operand : BitVec n} {e : Nat} (h : activeElement mask e f = true) :
    flagLoop F f fpcr rounding exact mask operand (e + 1) =
      (flagLoop F f fpcr rounding exact mask operand e).union (F.flags f (element f operand e) fpcr rounding exact) := by
  simp [flagLoop, h]

/-- A turn of the flag loop at an inactive element. -/
theorem flagLoop_succ_inactive {n k : Nat} {F : FPRoundIntFn} {f : Fmt} {fpcr : BitVec 64} {rounding : FPRounding}
    {exact : Bool} {mask : BitVec k} {operand : BitVec n} {e : Nat} (h : activeElement mask e f = false) :
    flagLoop F f fpcr rounding exact mask operand (e + 1) = flagLoop F f fpcr rounding exact mask operand e := by
  simp [flagLoop, h]

end Sys2Proof.Machine
end

