-- ==== Sys2Proof/Laws/PerInstr.lean ====
section
/-! SUPPORT. Statements made for every constructor of Instr. `EncodeFixedBits`: an instruction's word has the fixed bits of
its row, and its operand bits lie outside them (R59 to R62, R67, R68). -/

namespace Sys2Proof.Laws

/-- The operand fields have no bit in common with the fixed bits of a row (R62). -/
theorem operandBits_outside_mask (o : Operands) : operandBits o &&& rowMask = 0#32 := by
  have h1 : ∀ z : Size, (z.toBits.setWidth 32 <<< 22) &&& rowMask = 0#32 := by
    intro z; cases z <;> decide
  have h2 : ∀ g : PReg, (BitVec.ofNat 32 g.val <<< 10) &&& rowMask = 0#32 := by decide
  have h3 : ∀ n : ZReg, (BitVec.ofNat 32 n.val <<< 5) &&& rowMask = 0#32 := by decide
  have h4 : ∀ d : ZReg, BitVec.ofNat 32 d.val &&& rowMask = 0#32 := by decide
  simp only [operandBits, BitVec.and_or_distrib_right, h1, h2, h3, h4, BitVec.or_zero]

/-- A row's match value with operand bits added keeps the match value under the mask. -/
theorem masked_word (m : Word) (o : Operands) (h : m &&& rowMask = m) : (m ||| operandBits o) &&& rowMask = m := by
  rw [BitVec.and_or_distrib_right, operandBits_outside_mask, BitVec.or_zero, h]

/-- The fixed bits of an instruction's word are its row's match value (R67, R68). -/
def EncodeFixedBits.Statement (i : Instr) : Prop := encode i &&& rowMask = i.matchWord

theorem EncodeFixedBits.frintxM (o : Operands) : EncodeFixedBits.Statement (.frintxM o) :=
  masked_word 0x6506A000#32 o (by decide)

theorem EncodeFixedBits.frintxZ (o : Operands) : EncodeFixedBits.Statement (.frintxZ o) :=
  masked_word 0x6419C000#32 o (by decide)

theorem EncodeFixedBits.frintiM (o : Operands) : EncodeFixedBits.Statement (.frintiM o) :=
  masked_word 0x6507A000#32 o (by decide)

theorem EncodeFixedBits.frintiZ (o : Operands) : EncodeFixedBits.Statement (.frintiZ o) :=
  masked_word 0x6419E000#32 o (by decide)

theorem EncodeFixedBits.frintaM (o : Operands) : EncodeFixedBits.Statement (.frintaM o) :=
  masked_word 0x6504A000#32 o (by decide)

theorem EncodeFixedBits.frintaZ (o : Operands) : EncodeFixedBits.Statement (.frintaZ o) :=
  masked_word 0x64198000#32 o (by decide)

theorem EncodeFixedBits.frintnM (o : Operands) : EncodeFixedBits.Statement (.frintnM o) :=
  masked_word 0x6500A000#32 o (by decide)

theorem EncodeFixedBits.frintnZ (o : Operands) : EncodeFixedBits.Statement (.frintnZ o) :=
  masked_word 0x64188000#32 o (by decide)

theorem EncodeFixedBits.frintzM (o : Operands) : EncodeFixedBits.Statement (.frintzM o) :=
  masked_word 0x6503A000#32 o (by decide)

theorem EncodeFixedBits.frintzZ (o : Operands) : EncodeFixedBits.Statement (.frintzZ o) :=
  masked_word 0x6418E000#32 o (by decide)

theorem EncodeFixedBits.frintmM (o : Operands) : EncodeFixedBits.Statement (.frintmM o) :=
  masked_word 0x6502A000#32 o (by decide)

theorem EncodeFixedBits.frintmZ (o : Operands) : EncodeFixedBits.Statement (.frintmZ o) :=
  masked_word 0x6418C000#32 o (by decide)

theorem EncodeFixedBits.frintpM (o : Operands) : EncodeFixedBits.Statement (.frintpM o) :=
  masked_word 0x6501A000#32 o (by decide)

theorem EncodeFixedBits.frintpZ (o : Operands) : EncodeFixedBits.Statement (.frintpZ o) :=
  masked_word 0x6418A000#32 o (by decide)

end Sys2Proof.Laws
end

