-- ==== Sys2Proof/Machine/Assembly.lean ====
section
/-! DEFINITION. The assembler text of an instruction (30_encoding.md R76 to R79, general knowledge of the spec, G6; log 27,
UNVERIFIED). It is for a reader: no step reads it. -/

namespace Sys2Proof

/-- `<T>`, the letter of the element size; none for `'00'`, which is reserved (R77). -/
def Size.letter : Size → Option String
  | .size00 => none
  | .half => some "H"
  | .single => some "S"
  | .double => some "D"

/-- The mnemonic, `FRINT` and the letter of the rounding option; the same for both forms (R76). -/
def Instr.mnemonic : Instr → String
  | .frintxM _ => "FRINTX"
  | .frintxZ _ => "FRINTX"
  | .frintiM _ => "FRINTI"
  | .frintiZ _ => "FRINTI"
  | .frintaM _ => "FRINTA"
  | .frintaZ _ => "FRINTA"
  | .frintnM _ => "FRINTN"
  | .frintnZ _ => "FRINTN"
  | .frintzM _ => "FRINTZ"
  | .frintzZ _ => "FRINTZ"
  | .frintmM _ => "FRINTM"
  | .frintmZ _ => "FRINTM"
  | .frintpM _ => "FRINTP"
  | .frintpZ _ => "FRINTP"

/-- `FRINT<r> <Zd>.<T>, <Pg>/M, <Zn>.<T>`, with `/Z` for a zeroing class; none for `size = '00'` (R76, R77, R78). -/
def Instr.assembly (i : Instr) : Option String :=
  i.operands.size.letter.map fun t =>
    i.mnemonic ++ " Z" ++ Nat.repr i.operands.zd.val ++ "." ++ t ++ ", P" ++ Nat.repr i.operands.pg.val ++
      (if i.isMerging then "/M" else "/Z") ++ ", Z" ++ Nat.repr i.operands.zn.val ++ "." ++ t

end Sys2Proof
end

