-- ==== Sys2Proof/Tests/Slice0.lean ====
section
/-! SUPPORT. Tests. Expected values are those of spec/95_test_vectors.md (the vector is named in each comment) or written
out from the encodings of 30_encoding.md; the second part shows, for every obligation with hypotheses, a state and operands
that meet them. -/

set_option maxRecDepth 20000

namespace Sys2Proof.Tests

open Sys2Proof.Machine Sys2Proof.Safety

/-! ## Helpers -/

/-- A small state: configuration `c`, one predicate register, two vector registers, `pc = 0x1000`. -/
def mkState (c : Config) (g pm fpcr fpsr n zn d zd : Nat) : State where
  cfg := c
  pc := 0x1000#64
  z := ((Vector.replicate 32 0).set! d (BitVec.ofNat c.vl zd)).set! n (BitVec.ofNat c.vl zn)
  p := (Vector.replicate 16 0).set! g (BitVec.ofNat (c.vl / 8) pm)
  fpcr := BitVec.ofNat 64 fpcr
  fpsr := BitVec.ofNat 64 fpsr
  mem := []
  freeSeed := 0

/-- The outcome is a next state with the given `Z[d]`, `FPSR` and `pc`. -/
def nextIs (o : Host.Outcome State Fault Refusal) (d : ZReg) (z fpsr pc : Nat) : Bool :=
  match o with
  | .next t => (t.readZ d).toNat == z && t.fpsr.toNat == fpsr && t.pc.toNat == pc
  | .fault _ => false
  | .refused _ => false

def isNext (o : Host.Outcome State Fault Refusal) : Bool :=
  match o with
  | .next _ => true
  | .fault _ => false
  | .refused _ => false

/-- The outcome is a trapped floating-point exception. -/
def isFPTrap (o : Host.Outcome State Fault Refusal) : Bool :=
  match o with
  | .next _ => false
  | .fault (.fpTrapped _ _ _ _) => true
  | .fault _ => false
  | .refused _ => false

/-- The outcome is the given fault. -/
def faultIs (o : Host.Outcome State Fault Refusal) (x : Fault) : Bool :=
  match o with
  | .next _ => false
  | .fault y => decide (y = x)
  | .refused _ => false

/-- The outcome is the given refusal. -/
def refusalIs (o : Host.Outcome State Fault Refusal) (r : Refusal) : Bool :=
  match o with
  | .next _ => false
  | .fault _ => false
  | .refused q => decide (q = r)

theorem next_of_isNext {o : Host.Outcome State Fault Refusal} (h : isNext o = true) : ∃ t, o = .next t := by
  cases o with
  | next t => exact ⟨t, rfl⟩
  | fault _ => cases h
  | refused _ => cases h

theorem trap_of_isFPTrap {o : Host.Outcome State Fault Refusal} (h : isFPTrap o = true) :
    ∃ set fpsr pc w, o = .fault (.fpTrapped set fpsr pc w) := by
  cases o with
  | next t => cases h
  | fault x =>
    cases x with
    | undefinedInstruction _ _ => cases h
    | sveAccessTrap _ _ _ => cases h
    | fpTrapped set fpsr pc w => exact ⟨set, fpsr, pc, w, rfl⟩
  | refused _ => cases h

theorem eq_of_faultIs {o : Host.Outcome State Fault Refusal} {x : Fault} (h : faultIs o x = true) : o = .fault x := by
  cases o with
  | next _ => cases h
  | fault y => exact congrArg _ (of_decide_eq_true h)
  | refused _ => cases h

theorem eq_of_refusalIs {o : Host.Outcome State Fault Refusal} {r : Refusal} (h : refusalIs o r = true) :
    o = .refused r := by
  cases o with
  | next _ => cases h
  | fault _ => cases h
  | refused y => exact congrArg _ (of_decide_eq_true h)

/-- Without an enabled trap nothing traps. -/
theorem noTrap_of_none (f : Fmt) (rounding : FPRounding) (exact : Bool) (o : Operands) (s : State)
    (h : enabledTraps s.fpcrValue = .none) : NoTrap fpRoundInt f rounding exact o s := by
  intro e _
  rw [h]
  simp [FPExcSet.inter, FPExcSet.none]

/-! ## WellFormed: the one check, on `size` (R70) -/

theorem test_wf_size00_refused : (Instr.frintzM ⟨.size00, 0, 0, 0⟩).wf = false := by decide
theorem test_wf_half_accepted : (Instr.frintzM ⟨.half, 0, 0, 0⟩).wf = true := by decide

/-! ## Decoding: a word of each class written out from its encoding, fields in the order bits 31:24, size, bits 21:13, Pg,
Zn, Zd (30_encoding.md R67, R68; the patterns of 95 E1 to E14) -/

theorem test_decode_frintxM :
    decode (0b01100101#8 ++ 0b11#2 ++ 0b000110101#9 ++ 0b001#3 ++ 0b00001#5 ++ 0b00000#5) =
      .ok (.frintxM ⟨.double, 1, 1, 0⟩) := by decide
theorem test_decode_frintxZ :
    decode (0b01100100#8 ++ 0b01#2 ++ 0b011001110#9 ++ 0b111#3 ++ 0b11111#5 ++ 0b11110#5) =
      .ok (.frintxZ ⟨.half, 7, 31, 30⟩) := by decide
theorem test_decode_frintiM :
    decode (0b01100101#8 ++ 0b10#2 ++ 0b000111101#9 ++ 0b000#3 ++ 0b00010#5 ++ 0b00001#5) =
      .ok (.frintiM ⟨.single, 0, 2, 1⟩) := by decide
theorem test_decode_frintiZ :
    decode (0b01100100#8 ++ 0b11#2 ++ 0b011001111#9 ++ 0b101#3 ++ 0b01010#5 ++ 0b10100#5) =
      .ok (.frintiZ ⟨.double, 5, 10, 20⟩) := by decide
theorem test_decode_frintaM :
    decode (0b01100101#8 ++ 0b01#2 ++ 0b000100101#9 ++ 0b010#3 ++ 0b00011#5 ++ 0b00100#5) =
      .ok (.frintaM ⟨.half, 2, 3, 4⟩) := by decide
theorem test_decode_frintaZ :
    decode (0b01100100#8 ++ 0b10#2 ++ 0b011001100#9 ++ 0b110#3 ++ 0b10001#5 ++ 0b10010#5) =
      .ok (.frintaZ ⟨.single, 6, 17, 18⟩) := by decide
theorem test_decode_frintnM :
    decode (0b01100101#8 ++ 0b10#2 ++ 0b000000101#9 ++ 0b000#3 ++ 0b00001#5 ++ 0b00000#5) =
      .ok (.frintnM ⟨.single, 0, 1, 0⟩) := by decide
theorem test_decode_frintnZ :
    decode (0b01100100#8 ++ 0b11#2 ++ 0b011000100#9 ++ 0b011#3 ++ 0b01000#5 ++ 0b01001#5) =
      .ok (.frintnZ ⟨.double, 3, 8, 9⟩) := by decide
theorem test_decode_frintzM :
    decode (0b01100101#8 ++ 0b01#2 ++ 0b000011101#9 ++ 0b100#3 ++ 0b01100#5 ++ 0b01101#5) =
      .ok (.frintzM ⟨.half, 4, 12, 13⟩) := by decide
theorem test_decode_frintzZ :
    decode (0b01100100#8 ++ 0b10#2 ++ 0b011000111#9 ++ 0b001#3 ++ 0b00000#5 ++ 0b11111#5) =
      .ok (.frintzZ ⟨.single, 1, 0, 31⟩) := by decide
theorem test_decode_frintmM :
    decode (0b01100101#8 ++ 0b11#2 ++ 0b000010101#9 ++ 0b111#3 ++ 0b11110#5 ++ 0b11101#5) =
      .ok (.frintmM ⟨.double, 7, 30, 29⟩) := by decide
theorem test_decode_frintmZ :
    decode (0b01100100#8 ++ 0b01#2 ++ 0b011000110#9 ++ 0b000#3 ++ 0b11111#5 ++ 0b00000#5) =
      .ok (.frintmZ ⟨.half, 0, 31, 0⟩) := by decide
theorem test_decode_frintpM :
    decode (0b01100101#8 ++ 0b10#2 ++ 0b000001101#9 ++ 0b011#3 ++ 0b00101#5 ++ 0b00101#5) =
      .ok (.frintpM ⟨.single, 3, 5, 5⟩) := by decide
theorem test_decode_frintpZ :
    decode (0b01100100#8 ++ 0b11#2 ++ 0b011000101#9 ++ 0b010#3 ++ 0b10101#5 ++ 0b01011#5) =
      .ok (.frintpZ ⟨.double, 2, 21, 11⟩) := by decide

/-- `size = 00` still belongs to its row (T1). -/
theorem test_decode_size00 : decode 0x6503A020#32 = .ok (.frintzM ⟨.size00, 0, 1, 0⟩) := by decide

/-- The two selector-101 words of T3 are rejected under their own name. -/
theorem test_decode_selector101 :
    decode 0x6585A020#32 = .error .selectorNotDescribed ∧ decode 0x6499A020#32 = .error .selectorNotDescribed := by decide

/-- Words of T3 that leave the pattern in one bit. -/
theorem test_decode_outside :
    [0x65808020#32, 0x65802020#32, 0x6580E020#32, 0x65A0A020#32, 0x6590A020#32, 0x6588A020#32, 0x6480A020#32,
      0x64980020#32, 0x649A8020#32, 0x64908020#32, 0x65988020#32, 0xE580A020#32, 0x00000000#32, 0xFFFFFFFF#32,
      0xD503201F#32, 0x0420BC40#32].map decode = List.replicate 16 (.error .notInGroup) := by decide

theorem test_decode_truncated : decodeBytes [0x20#8, 0xA4#8, 0xC6#8] = .error .truncated := by decide

/-- E1's bytes at increasing addresses (R47). -/
theorem test_decode_bytes :
    decodeBytes [0x20#8, 0xA4#8, 0xC6#8, 0x65#8, 0xFF#8] = .ok (.frintxM ⟨.double, 1, 1, 0⟩, [0xFF#8]) := by decide

theorem test_decodeTableWord : decodeTableWord 32 0x65C6A420 = some (.frintxM ⟨.double, 1, 1, 0⟩) := by decide

/-- E1 and E2 back from their instructions. -/
theorem test_encode :
    encode (.frintxM ⟨.double, 1, 1, 0⟩) = 0x65C6A420#32 ∧ encode (.frintxZ ⟨.half, 7, 31, 30⟩) = 0x6459DFFE#32 := by decide

/-- The assembly of a word (the instance column of E1 to E14). -/
def assemblyOf (w : Word) : Option String :=
  match decode w with
  | .ok i => i.assembly
  | .error _ => none

theorem test_assembly_merging :
    assemblyOf 0x65C6A420#32 = some "FRINTX Z0.D, P1/M, Z1.D" ∧ assemblyOf 0x65C2BFDD#32 = some "FRINTM Z29.D, P7/M, Z30.D" := by
  decide

theorem test_assembly_zeroing :
    assemblyOf 0x64D9F554#32 = some "FRINTI Z20.D, P5/Z, Z10.D" ∧ assemblyOf 0x6418E41F#32 = none := by decide

/-! ## One step of each instruction: V7 -/

/-- The state of V7. -/
def v7 : State :=
  mkState Config.default 0 0x1011 0x00800000 0 1 0xBE8000003F000000C020000040200000 0 0xAAAAAAAAAAAAAAAAAAAAAAAAAAAAAAAA

/-- A step from V7's state with a word loaded leaves the given `Z0` and `FPSR`. -/
def v7Step (w z fpsr : Nat) : Bool := nextIs (step (v7.withFetchWord 32 w)) 0 z fpsr 0x1004

theorem test_frintxM : v7Step 0x6586A020 0xBF800000AAAAAAAAC040000040000000 0x10 = true := by decide
theorem test_frintxZ : v7Step 0x6499C020 0xBF80000000000000C040000040000000 0x10 = true := by decide
theorem test_frintiM : v7Step 0x6587A020 0xBF800000AAAAAAAAC040000040000000 0 = true := by decide
theorem test_frintiZ : v7Step 0x6499E020 0xBF80000000000000C040000040000000 0 = true := by decide
theorem test_frintaM : v7Step 0x6584A020 0x80000000AAAAAAAAC040000040400000 0 = true := by decide
theorem test_frintaZ : v7Step 0x64998020 0x8000000000000000C040000040400000 0 = true := by decide
theorem test_frintnM : v7Step 0x6580A020 0x80000000AAAAAAAAC000000040000000 0 = true := by decide
theorem test_frintnZ : v7Step 0x64988020 0x8000000000000000C000000040000000 0 = true := by decide
theorem test_frintzM : v7Step 0x6583A020 0x80000000AAAAAAAAC000000040000000 0 = true := by decide
theorem test_frintzZ : v7Step 0x6498E020 0x8000000000000000C000000040000000 0 = true := by decide
theorem test_frintmM : v7Step 0x6582A020 0xBF800000AAAAAAAAC040000040000000 0 = true := by decide
theorem test_frintmZ : v7Step 0x6498C020 0xBF80000000000000C040000040000000 0 = true := by decide
theorem test_frintpM : v7Step 0x6581A020 0x80000000AAAAAAAAC000000040400000 0 = true := by decide
theorem test_frintpZ : v7Step 0x6498A020 0x8000000000000000C000000040400000 0 = true := by decide

/-- V2a: half precision, highest register numbers, ties away. -/
theorem test_frintaM_half :
    nextIs (step ((mkState Config.default 7 0x5555 0 0 31 0x7BFF80005644BE00B80041003E003800 30
      0xAAAAAAAAAAAAAAAAAAAAAAAAAAAAAAAA).withFetchWord 32 0x6544BFFE)) 30
      0x7BFF80005640C000BC00420040003C00 0 0x1004 = true := by decide

/-- V3c: double precision, -0.75 toward plus infinity is -0. -/
theorem test_frintpZ_double :
    nextIs (step ((mkState Config.default 3 0x0101 0 0 9 0x430C6BF526340004BFE8000000000000 10
      0xAAAAAAAAAAAAAAAAAAAAAAAAAAAAAAAA).withFetchWord 32 0x64D8AD2A)) 10
      0x430C6BF5263400088000000000000000 0 0x1004 = true := by decide

/-- V4e: a signalling NaN is quietened, `IOC` is ORed into an `FPSR` that has `QC` and `UFC`. -/
theorem test_frintxM_nan :
    nextIs (step ((mkState Config.default 1 0x0001 0 0x8000008 2 0x400000007F8000013E99999A7FA00000 3
      0xAAAAAAAAAAAAAAAAAAAAAAAAAAAAAAAA).withFetchWord 32 0x6586A443)) 3
      0xAAAAAAAAAAAAAAAAAAAAAAAA7FE00000 0x8000009 0x1004 = true := by decide

/-- V5: the source is the destination. -/
theorem test_frintzM_inPlace :
    nextIs (step ((mkState Config.default 0 0x0101 0 0 5 0x411FD70A411FD70ABFF33333BFF33333 5 0).withFetchWord 32
      0x6583A0A5)) 5 0x411FD70A41100000BFF33333BF800000 0 0x1004 = true := by decide

/-- V6: `VL = 256`. -/
theorem test_frintnZ_vl256 :
    nextIs (step ((mkState { Config.default with vl := 256 } 0 0x01010001 0 0 1
      0x7E37E43C8800759CC0040000000000003FF80000000000003FE0000000000000 2 0xAAAA).withFetchWord 32 0x64D88022)) 2
      0x7E37E43C8800759CC00000000000000000000000000000000000000000000000 0 0x1004 = true := by decide

/-! ## One element: T7 -/

/-- The value and the exceptions of one element are the given ones. -/
def elementIs (f : Fmt) (op fpcr : Nat) (r : FPRounding) (exact : Bool) (value : Nat) (flags : FPExcSet) : Bool :=
  (fpRoundIntValue f (BitVec.ofNat _ op) (BitVec.ofNat 64 fpcr) r exact).toNat == value &&
    fpRoundIntFlags f (BitVec.ofNat _ op) (BitVec.ofNat 64 fpcr) r exact == flags

theorem test_fz16_half : elementIs .half 0x0001 0x00080000 .posInf true 0x0000 .none = true := by decide

theorem test_fz_single :
    elementIs .single 0x807FFFFF 0x01000000 .negInf false 0x80000000 { inputDenorm := true } = true := by decide

theorem test_fiz_single : elementIs .single 0x00000001 0x1 .posInf true 0 .none = true := by decide

theorem test_dn_double :
    elementIs .double 0xFFF4000000000000 0x02000000 .tieAway false 0x7FF8000000000000 { invalidOp := true } = true := by
  decide

theorem test_dn_ah_half : elementIs .half 0xFE55 0x02000002 .tieEven false 0xFE00 .none = true := by decide

/-- Without `HaveAFP`, `AH` and `FIZ` read as zero (R29). -/
theorem test_fpcrValue_masks :
    (mkState Config.default 0 0 0x0300FFFF 0 0 0 0 0).fpcrValue = 0x03002004#64 := by decide

/-! ## Faults: X1 to X10 -/

/-- No feature of the zeroing classes, and an access trap: X2, X3. -/
def cfgNo2p2 : Config := { Config.default with haveSVE2p2 := false, haveSME2p2 := false, sveCheck := .trap .sve }

def cfgTrap : Config := { Config.default with sveCheck := .trap .sve }

def cfgFPTrap : Config := { Config.default with fpTrapSupport := true }

theorem test_X1 :
    faultIs (step (v7.withFetchWord 32 0x6503A020)) (.undefinedInstruction 0x1000#64 0x6503A020#32) = true := by decide

theorem test_X3 :
    faultIs (step ((mkState cfgNo2p2 0 0 0 0 1 0 0 0).withFetchWord 32 0x64988020))
      (.undefinedInstruction 0x1000#64 0x64988020#32) = true := by decide

theorem test_X4 :
    faultIs (step ((mkState cfgTrap 0 0 0 0 1 0 0 0).withFetchWord 32 0x6500A020))
      (.undefinedInstruction 0x1000#64 0x6500A020#32) = true := by decide

theorem test_X5 :
    faultIs (step ((mkState cfgTrap 0 0xFFFF 0 0 1 0x3FC000007FA00000 0 0).withFetchWord 32 0x6586A020))
      (.sveAccessTrap .sve 0x1000#64 0x6586A020#32) = true := by decide

theorem test_X6 :
    isFPTrap (step ((mkState cfgFPTrap 0 1 0x1000 0 1 0x3FC00000 0 0).withFetchWord 32 0x6586A020)) = true := by decide

theorem test_X7 :
    nextIs (step ((mkState cfgFPTrap 0 1 0x1000 0 1 0x3FC00000 0 0).withFetchWord 32 0x6587A020)) 0
      0x40000000 0 0x1004 = true := by decide

theorem test_X8 :
    isFPTrap (step ((mkState cfgFPTrap 0 1 0x100 0 1 0x7FA00000 0 0).withFetchWord 32 0x6580A020)) = true := by decide

theorem test_X9 :
    nextIs (step ((mkState cfgFPTrap 0 0x10 0x100 0 1 0x3FC000007FA00000 0 0).withFetchWord 32 0x6580A020)) 0
      0x4000000000000000 0 0x1004 = true := by decide

theorem test_X10 :
    nextIs (step ((mkState Config.default 0 1 0 0 1 0x7FA00000 0 0).withFetchWord 32 0x6580A020)) 0
      0x7FE00000 1 0x1004 = true := by decide

/-! ## Refusals -/

/-- Program 6: `MOVPRFX` is refused at its own word. -/
theorem test_movprfx_refused :
    refusalIs (step (v7.withFetchWord 32 0x0420BC40)) (.notInGroup 0x1000#64 0x0420BC40#32) = true := by decide

theorem test_selector101_refused :
    refusalIs (step (v7.withFetchWord 32 0x6585A020)) (.selectorNotDescribed 0x1000#64 0x6585A020#32) = true := by decide

/-- Nothing is loaded at reset: the empty text ends where it begins (log 6, log 7). -/
theorem test_reset_endOfRun : refusalIs (step State.reset) (.endOfRun 0x1000#64) = true := by decide

/-- The first step after reset runs a loaded word. -/
theorem test_reset_runs_loaded_word : isNext (step (State.reset.withFetchWord 32 0x65C6A420)) = true := by decide

theorem test_reset_memory_wf : State.reset.mem.wf = true := by decide

/-! ## Witnesses: states and operands that meet the hypotheses of the obligations -/

/-- The operand `Z0.S, P0, Z1.S`. -/
def oS : Operands := ⟨.single, 0, 1, 0⟩

/-- V7's state with one word loaded. -/
def v7With (w : Nat) : State := v7.withFetchWord 32 w

/-- Two words at `0x1000`: a merging and a zeroing FRINTN (Program 4). -/
def prog : State :=
  { v7 with mem := Memory.writeBytes [] 0x1000 (bytesOfWord 0x6580A020#32 ++ bytesOfWord 0x64988020#32) }

/-- The state of X6: an active element that is not an integer, `IXE = 1`. -/
def x6 : State := mkState cfgFPTrap 0 1 0x1000 0 1 0x3FC00000 0 0

/-- V7's state where the access check answers with a trap. -/
def v7Trap : State := { v7 with cfg := cfgTrap }

theorem v7_noTrap (f : Fmt) (rounding : FPRounding) (exact : Bool) (o : Operands) :
    NoTrap fpRoundInt f rounding exact o v7 := noTrap_of_none _ _ _ _ _ (by decide)

/-! ### Encoding and decoding: the least and the greatest word of each format -/

theorem witness_EncodeOfDecodeIsTheWord :
    decode 0x64188000#32 = .ok (.frintnZ ⟨.size00, 0, 0, 0⟩) ∧
    decode 0x65C7BFFF#32 = .ok (.frintiM ⟨.double, 7, 31, 31⟩) := by decide

theorem witness_MergingWordsAreExactlyTheTable :
    decode 0x6500A000#32 = .ok (.frintnM ⟨.size00, 0, 0, 0⟩) ∧
    decode 0x65C7BFFF#32 = .ok (.frintiM ⟨.double, 7, 31, 31⟩) ∧
    (Instr.frintnM ⟨.size00, 0, 0, 0⟩).isMerging = true ∧ (Instr.frintiM ⟨.double, 7, 31, 31⟩).isMerging = true := by
  decide

theorem witness_ZeroingWordsAreExactlyTheTable :
    decode 0x64188000#32 = .ok (.frintnZ ⟨.size00, 0, 0, 0⟩) ∧
    decode 0x64D9FFFF#32 = .ok (.frintiZ ⟨.double, 7, 31, 31⟩) ∧
    (Instr.frintnZ ⟨.size00, 0, 0, 0⟩).isMerging = false ∧ (Instr.frintiZ ⟨.double, 7, 31, 31⟩).isMerging = false ∧
    (Instr.frintnM ⟨.size00, 0, 0, 0⟩).isMerging = true := by decide

theorem witness_OperandFieldsComeFromTheirBits :
    (decode 0x6500A000#32 = .ok (.frintnM ⟨.size00, 0, 0, 0⟩) ∧ sizeFmt .size00 = none) ∧
    (decode 0x6540A000#32 = .ok (.frintnM ⟨.half, 0, 0, 0⟩) ∧ sizeFmt .half = some .half) ∧
    (decode 0x65C7BFFF#32 = .ok (.frintiM ⟨.double, 7, 31, 31⟩) ∧ sizeFmt .double = some .double) := by decide

/-- The selector-101 word of each format, and MOVPRFX. -/
theorem witness_WordsOutsideThePatternsAreRefused :
    (∀ w ∈ [0x6585A020#32, 0x6499A020#32, 0x0420BC40#32], ∀ i : Instr, w &&& 0xFF3FE000#32 ≠ i.matchWord) ∧
    v7.pc.toNat % 4 = 0 ∧ WordAt (v7With 0x6585A020).mem v7.pc.toNat 0x6585A020#32 ∧
    WordAt (v7With 0x6499A020).mem v7.pc.toNat 0x6499A020#32 ∧
    WordAt (v7With 0x0420BC40).mem v7.pc.toNat 0x0420BC40#32 := by
  refine ⟨?_, by decide, by unfold WordAt; decide, by unfold WordAt; decide, by unfold WordAt; decide⟩
  intro w hw i
  fin_cases hw <;> cases i <;> simp only [Instr.matchWord] <;> decide

theorem witness_StepRunsTheDecodedInstruction :
    v7.pc.toNat % 4 = 0 ∧ WordAt (v7With 0x6586A020).mem v7.pc.toNat 0x6586A020#32 ∧
    decode 0x6586A020#32 = .ok (.frintxM oS) := ⟨by decide, by unfold WordAt; decide, by decide⟩

theorem witness_FetchedWordIsLittleEndian :
    (v7With 0x65C6A420).pc.toNat % 4 = 0 ∧ Memory.read (v7With 0x65C6A420).mem 0x1000 = some 0x20#8 ∧
    Memory.read (v7With 0x65C6A420).mem 0x1001 = some 0xA4#8 ∧
    Memory.read (v7With 0x65C6A420).mem 0x1002 = some 0xC6#8 ∧
    Memory.read (v7With 0x65C6A420).mem 0x1003 = some 0x65#8 := by decide

/-- Loading over a longer text; the bytes just outside the loaded word. -/
theorem witness_LoadedWordRunsNext :
    prog.pc.toNat % 4 = 0 ∧ decodeTableWord 32 0x6583A020 = some (.frintzM oS) ∧
    Memory.read prog.mem 0x0FFF = none ∧ Memory.read prog.mem 0x1004 = some 0x20#8 := by decide

/-! ### Faults -/

theorem witness_SizeZeroIsUndefinedInEveryClass :
    (Instr.frintzM ⟨.size00, 0, 1, 0⟩).operands.size = .size00 := by decide

/-- The three ways to be undefined, and an instruction that is none of them. -/
theorem witness_UndefinedExactlyWhenFeaturesOrSizeSay :
    exec (.frintnM oS) (mkState { Config.default with haveSVE := false, haveSME := false } 0 0 0 0 1 0 0 0) =
      .fault (.undefinedInstruction 0x1000#64 0x6580A020#32) ∧
    exec (.frintnZ oS) (mkState cfgNo2p2 0 0 0 0 1 0 0 0) = .fault (.undefinedInstruction 0x1000#64 0x64988020#32) ∧
    exec (.frintzM ⟨.size00, 0, 1, 0⟩) v7 = .fault (.undefinedInstruction 0x1000#64 0x6503A020#32) ∧
    isNext (exec (.frintnZ oS) v7) = true :=
  ⟨eq_of_faultIs (by decide), eq_of_faultIs (by decide), eq_of_faultIs (by decide), by decide⟩

/-- Some enabled trap is signalled in X6's state. -/
theorem x6_traps : ¬ NoTrap fpRoundInt .single (roundingOf (.frintxM oS) x6.fpcrValue) (exactOf (.frintxM oS)) oS x6 :=
  fun h => absurd (h 0 ⟨by decide, by decide⟩) (by decide)

/-- One state for each clause. -/
theorem witness_OutcomeFollowsThePriorityOrder :
    featureOf (.frintnZ oS) (mkState cfgNo2p2 0 0 0 0 1 0 0 0) = false ∧
    (featureOf (.frintzM ⟨.size00, 0, 1, 0⟩) v7 = true ∧
      (Instr.frintzM ⟨.size00, 0, 1, 0⟩).operands.size = .size00) ∧
    (featureOf (.frintxM oS) (mkState cfgTrap 0 0xFFFF 0 0 1 0 0 0) = true ∧ sizeFmt oS.size = some .single ∧
      (mkState cfgTrap 0 0xFFFF 0 0 1 0 0 0).cfg.sveCheck = .trap .sve) ∧
    (featureOf (.frintxM oS) x6 = true ∧ x6.cfg.sveCheck = .ok ∧
      ¬ NoTrap fpRoundInt .single (roundingOf (.frintxM oS) x6.fpcrValue) (exactOf (.frintxM oS)) oS x6) ∧
    (featureOf (.frintxM oS) v7 = true ∧ v7.cfg.sveCheck = .ok ∧
      NoTrap fpRoundInt .single (roundingOf (.frintxM oS) v7.fpcrValue) (exactOf (.frintxM oS)) oS v7) :=
  ⟨by decide, by decide, by decide, ⟨by decide, by decide, x6_traps⟩, ⟨by decide, by decide, v7_noTrap _ _ _ _⟩⟩

theorem witness_TrapReportIsWithinItsBound :
    sizeFmt (Instr.frintxM oS).operands.size = some .single ∧
    ∃ set fpsr pc w, exec (.frintxM oS) x6 = .fault (.fpTrapped set fpsr pc w) :=
  ⟨by decide, trap_of_isFPTrap (by decide)⟩

/-- Also where the stored register has every trap-enable bit set. -/
theorem witness_NoFloatingPointTrapWithoutSupport :
    v7.cfg.fpTrapSupport = false ∧
    (mkState Config.default 0 0 0x9F00 0 0 0 0 0).cfg.fpTrapSupport = false ∧
    (mkState Config.default 0 0 0x9F00 0 0 0 0 0).fpcr = 0x9F00#64 := by decide

theorem witness_FaultsRecordTheInstructionAndNothingIsRefused :
    exec (.frintxM oS) (mkState cfgTrap 0 0xFFFF 0 0 1 0 0 0) =
      .fault (.sveAccessTrap .sve 0x1000#64 0x6586A020#32) := eq_of_faultIs (by decide)

/-- A fault of each name. -/
theorem witness_SyndromeClassesOfFaults :
    exec (.frintzM ⟨.size00, 0, 1, 0⟩) v7 = .fault (.undefinedInstruction 0x1000#64 0x6503A020#32) ∧
    exec (.frintnM oS) v7Trap = .fault (.sveAccessTrap .sve 0x1000#64 0x6580A020#32) ∧
    ∃ set fpsr pc w, exec (.frintxM oS) x6 = .fault (.fpTrapped set fpsr pc w) :=
  ⟨eq_of_faultIs (by decide), eq_of_faultIs (by decide), trap_of_isFPTrap (by decide)⟩

/-! ### The operation -/

/-- The hypotheses of the two completion statements, at each element size and at states with active elements. -/
theorem witness_FormsCompleteWithTheClosedForm :
    v7.mergingFeature = true ∧ v7.zeroingFeature = true ∧ v7.cfg.sveCheck = .ok ∧
    (∀ z f, (z, f) ∈ [(Size.half, Fmt.half), (.single, .single), (.double, .double)] → sizeFmt z = some f ∧
      ∀ rounding exact, NoTrap fpRoundInt f rounding exact ⟨z, 0, 1, 0⟩ v7) := by
  refine ⟨by decide, by decide, by decide, fun z f h => ⟨?_, fun r x => v7_noTrap _ _ _ _⟩⟩
  fin_cases h <;> rfl

/-- With traps enabled: the statement's condition can hold there too (X7, X9). -/
theorem witness_LoopIsTheClosedFormForAnyFPRoundInt :
    NoTrap fpRoundInt .single .tieEven false oS x6 ∧ x6.fpcrValue = 0x1000#64 ∧
    ¬ NoTrap fpRoundInt .single .tieEven true oS x6 := by
  refine ⟨?_, by decide, fun h => absurd (h 0 ⟨by decide, by decide⟩) (by decide)⟩
  intro e he
  have h4 : e < 4 := he.1
  interval_cases e <;> decide

theorem witness_CompletedInstructionFrame :
    (∃ t, exec (.frintxM oS) v7 = .next t) ∧ (∃ set fpsr pc w, exec (.frintxM oS) x6 = .fault (.fpTrapped set fpsr pc w)) :=
  ⟨next_of_isNext (by decide), trap_of_isFPTrap (by decide)⟩

/-- At the wrap of `pc`, and at a fault. -/
theorem witness_PcAdvancesByFourOrStays :
    nextIs (exec (.frintnM oS) { v7 with pc := 0xFFFFFFFFFFFFFFFC#64 }) 0 0x80000000AAAAAAAAC000000040000000 0 0 = true ∧
    exec (.frintzM ⟨.size00, 0, 1, 0⟩) v7 = .fault (.undefinedInstruction 0x1000#64 0x6503A020#32) :=
  ⟨by decide, eq_of_faultIs (by decide)⟩

/-- Each of IOC, IXC, IDC is set by some completed instruction from `FPSR = 0`. -/
theorem witness_FpsrBitsAreSetExactlyWhen :
    sizeFmt oS.size = some .single ∧
    nextIs (exec (.frintnM oS) (mkState Config.default 0 1 0 0 1 0x7FA00000 0 0)) 0 0x7FE00000 0x01 0x1004 = true ∧
    nextIs (exec (.frintxM oS) (mkState Config.default 0 1 0 0 1 0x3FC00000 0 0)) 0 0x40000000 0x10 0x1004 = true ∧
    nextIs (exec (.frintnM oS) (mkState Config.default 0 1 0x01000000 0 1 0x00000001 0 0)) 0 0 0x80 0x1004 = true := by
  decide

theorem witness_RunsKeepControlStateAndStickyFlags : ∃ t, Host.Core.run Sys2Proof.core 2 prog = .next t :=
  next_of_isNext (o := Host.Core.run Sys2Proof.core 2 prog) (by decide)

/-! ### What an instruction does not depend on -/

theorem witness_FixedRoundingIgnoresRMode :
    fixedRounding (.frintnM oS) ∧ 0x00400000#64 &&& ~~~0x00C00000#64 = v7.fpcr &&& ~~~0x00C00000#64 ∧
    0x00400000#64 ≠ v7.fpcr ∧ (∃ t, exec (.frintnM oS) v7 = .next t) ∧
    exec (.frintnM oS) (mkState cfgTrap 0 0 0x00800000 0 1 0 0 0) = .fault (.sveAccessTrap .sve 0x1000#64 0x6580A020#32) :=
  ⟨fun _ _ => rfl, by decide, by decide, next_of_isNext (by decide), eq_of_faultIs (by decide)⟩

/-- A mask that differs from V7's in bits that belong to no element. -/
theorem witness_PredicateIsReadAtLowestBitsOnly :
    (∀ f e, sizeFmt (Instr.frintnM oS).operands.size = some f → e < elementCount v7.cfg.vl f →
      (0xFEFF#16 : BitVec (v7.cfg.vl / 8)).getLsbD (e * (f.bits / 8)) =
        (v7.readP (Instr.frintnM oS).operands.pg).getLsbD (e * (f.bits / 8))) ∧
    (∃ t, exec (.frintnM oS) v7 = .next t) := by
  refine ⟨?_, next_of_isNext (by decide)⟩
  intro f e hf he
  cases hf
  have h4 : e < 4 := he
  interval_cases e <;> decide

/-- A source that differs from V7's in the inactive element 2. -/
theorem witness_InactiveSourceElementsHaveNoInfluence :
    (Instr.frintnM oS).operands.zn ≠ (Instr.frintnM oS).operands.zd ∧
    (∀ f e, sizeFmt (Instr.frintnM oS).operands.size = some f → Active f (Instr.frintnM oS).operands v7 e →
      element f (0xBE8000007F800001C020000040200000#128 : BitVec v7.cfg.vl) e =
        element f (v7.readZ (Instr.frintnM oS).operands.zn) e) ∧
    (∃ t, exec (.frintnM oS) v7 = .next t) := by
  refine ⟨by decide, ?_, next_of_isNext (by decide)⟩
  intro f e hf he
  cases hf
  have h4 : e < 4 := he.1
  have hb := he.2
  interval_cases e
  · decide
  · decide
  · exact absurd hb (by decide)
  · decide

/-- The same two statements at a fault. -/
theorem witness_PredicateAndSourceAtAFault :
    (∀ f e, sizeFmt (Instr.frintnM oS).operands.size = some f → e < elementCount v7Trap.cfg.vl f →
      (0xFEFF#16 : BitVec (v7Trap.cfg.vl / 8)).getLsbD (e * (f.bits / 8)) =
        (v7Trap.readP (Instr.frintnM oS).operands.pg).getLsbD (e * (f.bits / 8))) ∧
    (∀ f e, sizeFmt (Instr.frintnM oS).operands.size = some f → Active f (Instr.frintnM oS).operands v7Trap e →
      element f (0xBE8000007F800001C020000040200000#128 : BitVec v7Trap.cfg.vl) e =
        element f (v7Trap.readZ (Instr.frintnM oS).operands.zn) e) ∧
    exec (.frintnM oS) v7Trap = .fault (.sveAccessTrap .sve 0x1000#64 0x6580A020#32) :=
  ⟨witness_PredicateIsReadAtLowestBitsOnly.1, witness_InactiveSourceElementsHaveNoInfluence.2.1,
    eq_of_faultIs (by decide)⟩

theorem witness_ZeroingFormsIgnoreTheOldDestination :
    (Instr.frintnZ oS).isMerging = false ∧ (Instr.frintnZ oS).operands.zn ≠ (Instr.frintnZ oS).operands.zd := by decide

/-- V1a: only predicate bits that belong to no `.S` element are set. -/
theorem witness_NoActiveElementCornerCase :
    featureOf (.frintnM oS) (mkState Config.default 0 0x000E 0 0 1 0x3FC00000 0 0) = true ∧
    sizeFmt (Instr.frintnM oS).operands.size = some .single ∧
    (mkState Config.default 0 0x000E 0 0 1 0x3FC00000 0 0).cfg.sveCheck = .ok ∧
    ∀ e, ¬ Active .single oS (mkState Config.default 0 0x000E 0 0 1 0x3FC00000 0 0) e := by
  refine ⟨by decide, by decide, by decide, ?_⟩
  intro e he
  have h4 : e < 4 := he.1
  have hb := he.2
  interval_cases e <;> exact absurd hb (by decide)

theorem witness_OptionXIsOptionIPlusInexact :
    (∃ t u, exec (.frintxM oS) v7 = .next t ∧ exec (.frintiM oS) v7 = .next u) ∧
    (∃ t u, exec (.frintxZ oS) v7 = .next t ∧ exec (.frintiZ oS) v7 = .next u) := by
  obtain ⟨t, ht⟩ := next_of_isNext (o := exec (.frintxM oS) v7) (by decide)
  obtain ⟨u, hu⟩ := next_of_isNext (o := exec (.frintiM oS) v7) (by decide)
  obtain ⟨t', ht'⟩ := next_of_isNext (o := exec (.frintxZ oS) v7) (by decide)
  obtain ⟨u', hu'⟩ := next_of_isNext (o := exec (.frintiZ oS) v7) (by decide)
  exact ⟨⟨t, u, ht, hu⟩, ⟨t', u', ht', hu'⟩⟩

/-! ### One element -/

/-- The value of a normal number, from its fields. -/
theorem toRat_normal {e m : Nat} {s : Bool} (f : Fmt) (x : BitVec f.bits) (he : fpExp f x = e) (hm : fpFrac f x = m)
    (hs : fpSign f x = s) (h0 : e ≠ 0) :
    fpToRat f x = (if s then -1 else 1) * ((1 + (m : ℚ) / 2 ^ f.fracBits) * 2 ^ ((e : ℤ) - (f.bias : ℤ))) := by
  simp only [fpToRat, he, hm, hs, h0, if_false]

theorem witness_RoundingModeFollowsRMode :
    (0x00000000#64).extractLsb' 22 2 = 0b00#2 ∧ (0x00400000#64).extractLsb' 22 2 = 0b01#2 ∧
    (0x00800000#64).extractLsb' 22 2 = 0b10#2 ∧ (0x00C00000#64).extractLsb' 22 2 = 0b11#2 := by decide

/-- The single-precision numbers 0.5 and 1.0. -/
def halfS : BitVec Fmt.single.bits := BitVec.ofNat _ 0x3F000000
def oneS : BitVec Fmt.single.bits := BitVec.ofNat _ 0x3F800000

/-- The half-precision numbers 1.5 and 2.5. -/
def threeHalvesH : BitVec Fmt.half.bits := BitVec.ofNat _ 0x3E00
def fiveHalvesH : BitVec Fmt.half.bits := BitVec.ofNat _ 0x4100

theorem halfS_value : fpToRat .single halfS = 1 / 2 :=
  (toRat_normal (e := 126) (m := 0) (s := false) .single halfS (by decide) (by decide) (by decide) (by decide)).trans
    (by norm_num [Fmt.fracBits, Fmt.bias])

theorem oneS_value : fpToRat .single oneS = 1 :=
  (toRat_normal (e := 127) (m := 0) (s := false) .single oneS (by decide) (by decide) (by decide) (by decide)).trans
    (by norm_num [Fmt.fracBits, Fmt.bias])

theorem threeHalvesH_value : fpToRat .half threeHalvesH = 3 / 2 :=
  (toRat_normal (e := 15) (m := 512) (s := false) .half threeHalvesH (by decide) (by decide) (by decide)
    (by decide)).trans (by norm_num [Fmt.fracBits, Fmt.bias])

theorem fiveHalvesH_value : fpToRat .half fiveHalvesH = 5 / 2 :=
  (toRat_normal (e := 16) (m := 256) (s := false) .half fiveHalvesH (by decide) (by decide) (by decide)
    (by decide)).trans (by norm_num [Fmt.fracBits, Fmt.bias])

/-- 0.5 rounds to zero in one mode; 1.0 is an integer. -/
theorem witness_NonzeroOperandsRoundToTheNamedInteger :
    (fpClassify .single halfS 0 = .nonzero ∧ roundRat .tieEven (fpToRat .single halfS) = 0) ∧
    (fpClassify .single oneS 0 = .nonzero ∧ ∃ n : ℤ, fpToRat .single oneS = n) := by
  refine ⟨⟨by decide, ?_⟩, ⟨by decide, 1, by rw [oneS_value]; norm_num⟩⟩
  rw [halfS_value]
  norm_num [roundRat, roundUpRat]

theorem witness_InexactExactlyWhenNotIntegral : fpClassify .half 0x0001#16 0 = .nonzero := by decide

/-- An infinity, a zero and a NaN. -/
theorem witness_InfinitiesAndZerosPassThrough :
    (fpExp .half 0xFC00#16 = Fmt.half.expMax ∧ fpFrac .half 0xFC00#16 = 0) ∧
    (fpExp .single 0x80000000#32 = 0 ∧ fpFrac .single 0x80000000#32 = 0) ∧ IsNaN .half 0x7C01#16 := by
  unfold IsNaN; decide

/-- The least and the greatest denormal, of half and of double precision. -/
theorem witness_DenormalsAreFlushedExactlyWhen :
    IsDenormal .half 0x0001#16 ∧ IsDenormal .half 0x83FF#16 ∧ IsDenormal .double 0x1#64 ∧
    IsDenormal .double 0x800FFFFFFFFFFFFF#64 ∧ State.reset.cfg.haveAFP = false := by
  unfold IsDenormal; decide

/-- A signalling and a quiet NaN, `DN` and `AH` of both values. -/
theorem witness_NaNsAreProcessed :
    IsNaN .single 0x7F800001#32 ∧ IsNaN .single 0xFFC12345#32 ∧ fpcrDN 0x02000000#64 = true ∧ fpcrDN 0#64 = false ∧
    fpcrAH 0x2#64 = true ∧ fpcrAH 0#64 = false ∧ State.reset.cfg.haveAFP = false := by
  unfold IsNaN; decide

theorem witness_ResultIsIntegralWithTheOperandsSign : ¬ IsNaN .double 0xC004000000000000#64 := by
  unfold IsNaN; decide

theorem witness_RoundingIsMonotone :
    IsFinite .half threeHalvesH ∧ IsFinite .half fiveHalvesH ∧
    fpToRat .half threeHalvesH ≤ fpToRat .half fiveHalvesH := by
  refine ⟨by unfold IsFinite; decide, by unfold IsFinite; decide, ?_⟩
  rw [threeHalvesH_value, fiveHalvesH_value]
  norm_num

theorem witness_RoundingErrorIsBelowOne : IsFinite .half 0x3800#16 := by unfold IsFinite; decide

/-- Two values that differ in `RMode` and in nothing the scalar function reads. -/
theorem witness_ScalarUsesFiveFieldsOfFpcr :
    0x03C80003#64 &&& 0x03080003#64 = 0x03080003#64 &&& 0x03080003#64 ∧ 0x03C80003#64 ≠ 0x03080003#64 := by decide

/-! ### Invariants and runs -/

theorem prog_launch : Launch prog := ⟨by decide, by decide, by decide, by decide⟩

theorem witness_LaunchStatesMeetTheInvariant : Launch prog := prog_launch

theorem witness_StepKeepsTheInvariant : RunInv prog ∧ ∃ t, step prog = .next t :=
  ⟨⟨by decide, ⟨0, by decide, by decide⟩, by decide, by decide, by decide⟩, next_of_isNext (by decide)⟩

/-- The end of the text, and a refused word inside it. -/
theorem witness_PcNeverLeavesTheText :
    RunInv { prog with pc := 0x1008#64 } ∧ State.isFinal { prog with pc := 0x1008#64 } = true ∧
    RunInv (v7With 0x0420BC40) ∧ (v7With 0x0420BC40).isFinal = false ∧
    step (v7With 0x0420BC40) = .refused (.notInGroup 0x1000#64 0x0420BC40#32) :=
  ⟨⟨by decide, ⟨2, by decide, by decide⟩, by decide, by decide, by decide⟩, by decide,
    ⟨by decide, ⟨0, by decide, by decide⟩, by decide, by decide, by decide⟩, by decide, eq_of_refusalIs (by decide)⟩

theorem witness_RunsEndWithinTheTextLength :
    Launch prog ∧ prog.len = 2 ∧ ∃ t, Host.Core.run Sys2Proof.core prog.len prog = .next t :=
  ⟨prog_launch, by decide, next_of_isNext (o := Host.Core.run Sys2Proof.core prog.len prog) (by decide)⟩

theorem witness_TextsOfTheGroupEndNormally :
    Launch prog ∧ prog.mergingFeature = true ∧ prog.zeroingFeature = true ∧ prog.cfg.sveCheck = .ok ∧
    prog.cfg.fpTrapSupport = false ∧
    ∀ k, k < prog.len → ∃ i : Instr, i.wf = true ∧ WordAt prog.mem (prog.entry + 4 * k) (encode i) := by
  refine ⟨prog_launch, by decide, by decide, by decide, by decide, ?_⟩
  intro k hk
  have h2 : k < 2 := hk
  interval_cases k
  · exact ⟨.frintnM oS, by decide, by unfold WordAt; decide⟩
  · exact ⟨.frintnZ oS, by decide, by unfold WordAt; decide⟩

end Sys2Proof.Tests
end

section
/-! PROOFS of the family 10_state: the program text. Which addresses of a consecutive text read, and what a state that
meets the invariant fetches (20_memory.md R50; 70_reset_and_hazards.md R146). -/

namespace Sys2Proof.Proofs

open Sys2Proof.Machine Sys2Proof.Safety

/-! ## Reading a consecutive text -/

theorem read_isSome_iff_of_contiguousFrom {m : Memory} {lo a : Nat} (h : Memory.contiguousFrom lo m = true) :
    (Memory.read m a).isSome = true ↔ lo ≤ a ∧ a < lo + m.length := by
  induction m generalizing lo with
  | nil => simp [Memory.read]
  | cons c rest ih =>
    obtain ⟨b, v⟩ := c
    obtain ⟨rfl, hrest⟩ : lo = b ∧ Memory.contiguousFrom (lo + 1) rest = true := by
      simpa [Memory.contiguousFrom] using h
    by_cases hab : a = lo
    · simp [Memory.read, hab]
    · simp only [Memory.read, hab, if_false, ih hrest, List.length_cons]
      omega

theorem lt_of_read_isSome {m : Memory} {lo a : Nat} (h : Memory.risingFrom lo m = true)
    (ha : (Memory.read m a).isSome = true) : a < 2 ^ 64 := by
  induction m generalizing lo with
  | nil => simp [Memory.read] at ha
  | cons c rest ih =>
    obtain ⟨b, v⟩ := c
    obtain ⟨⟨-, hb⟩, hrest⟩ : (lo ≤ b ∧ b < 2 ^ 64) ∧ Memory.risingFrom (b + 1) rest = true := by
      simpa [Memory.risingFrom] using h
    by_cases hab : a = b
    · omega
    · exact ih hrest (by simpa [Memory.read, hab] using ha)

theorem fetch4_eq_none {m : Memory} {a : Nat} (h : Memory.read m a = none) : Memory.fetch4 m a = none := by
  simp [Memory.fetch4, h]

theorem fetch4_eq_some {m : Memory} {a : Nat} {b0 b1 b2 b3 : Byte} (h0 : Memory.read m a = some b0)
    (h1 : Memory.read m (a + 1) = some b1) (h2 : Memory.read m (a + 2) = some b2)
    (h3 : Memory.read m (a + 3) = some b3) : Memory.fetch4 m a = some [b0, b1, b2, b3] := by
  simp [Memory.fetch4, h0, h1, h2, h3]

theorem fetch4_of_contiguousFrom {m : Memory} {lo a : Nat} (h : Memory.contiguousFrom lo m = true) (hlo : lo ≤ a)
    (hhi : a + 4 ≤ lo + m.length) : ∃ b0 b1 b2 b3, Memory.fetch4 m a = some [b0, b1, b2, b3] := by
  have hread : ∀ j < 4, ∃ b, Memory.read m (a + j) = some b := fun j hj =>
    Option.isSome_iff_exists.mp ((read_isSome_iff_of_contiguousFrom h).mpr (by omega))
  obtain ⟨b0, h0⟩ := hread 0 (by omega)
  obtain ⟨b1, h1⟩ := hread 1 (by omega)
  obtain ⟨b2, h2⟩ := hread 2 (by omega)
  obtain ⟨b3, h3⟩ := hread 3 (by omega)
  exact ⟨b0, b1, b2, b3, fetch4_eq_some h0 h1 h2 h3⟩

/-! ## `textOk` and the bounds of the text -/

theorem textOk_iff (s : State) : textOk s = true ↔
    s.mem.wf = true ∧ Memory.contiguousFrom s.entry s.mem = true ∧ s.entry % 4 = 0 ∧ s.mem.length % 4 = 0 ∧
      s.mem.length < 2 ^ 64 := by
  simp [textOk, and_assoc]

/-- A text that is not empty ends at or below the top of the address space (log 30). -/
theorem entry_add_length_le {s : State} (h : textOk s = true) (hne : 0 < s.mem.length) :
    s.entry + s.mem.length ≤ 2 ^ 64 := by
  obtain ⟨hwf, hcont, -⟩ := (textOk_iff s).mp h
  have hlast : (Memory.read s.mem (s.entry + s.mem.length - 1)).isSome = true :=
    (read_isSome_iff_of_contiguousFrom hcont).mpr (by omega)
  have := lt_of_read_isSome hwf hlast
  omega

theorem four_mul_len {s : State} (h : textOk s = true) : 4 * s.len = s.mem.length := by
  obtain ⟨-, -, -, hmod, -⟩ := (textOk_iff s).mp h
  exact Nat.mul_div_cancel' (Nat.dvd_of_mod_eq_zero hmod)

theorem entry_eq_of_mem_eq {s t : State} (hmem : t.mem = s.mem) (hne : 0 < s.mem.length) : t.entry = s.entry := by
  obtain ⟨cell, rest, hs⟩ := List.exists_cons_of_length_pos hne
  rw [State.entry, State.entry, hmem, hs]

theorem textOk_of_mem_eq {s t : State} (hmem : t.mem = s.mem) (hne : 0 < s.mem.length) (h : textOk s = true) :
    textOk t = true := by
  rw [textOk_iff] at h ⊢
  rwa [entry_eq_of_mem_eq hmem hne, hmem]

/-! ## Fetch -/

theorem pcAligned_iff (s : State) : s.pcAligned = true ↔ s.pc.toNat % 4 = 0 := by simp [State.pcAligned]

theorem isFinal_iff (s : State) : s.isFinal = true ↔ s.pc = BitVec.ofNat 64 (s.entry + 4 * s.len) := by
  simp [State.isFinal]

theorem fetch_of_aligned {s : State} (h : s.pc.toNat % 4 = 0) : s.fetch = Memory.fetch4 s.mem s.pc.toNat := by
  simp [State.fetch, (pcAligned_iff s).mpr h]

/-- The word at an aligned `pc` is what is fetched, byte by byte (R47). -/
theorem fetch_of_wordAt {s : State} {w : Word} (hal : s.pc.toNat % 4 = 0) (h : WordAt s.mem s.pc.toNat w) :
    s.fetch = some (bytesOfWord w) := by
  obtain ⟨h0, h1, h2, h3⟩ := h
  rw [fetch_of_aligned hal, fetch4_eq_some h0 h1 h2 h3, bytesOfWord]

theorem wordOfBytes_bytesOfWord (w : Word) :
    wordOfBytes (w.extractLsb' 0 8) (w.extractLsb' 8 8) (w.extractLsb' 16 8) (w.extractLsb' 24 8) = w := by
  have h32 : w.extractLsb' 24 8 ++ w.extractLsb' 16 8 = w.extractLsb' 16 16 :=
    BitVec.extractLsb'_append_extractLsb'_eq_extractLsb' rfl
  have h321 : w.extractLsb' 16 16 ++ w.extractLsb' 8 8 = w.extractLsb' 8 24 :=
    BitVec.extractLsb'_append_extractLsb'_eq_extractLsb' rfl
  have h3210 : w.extractLsb' 8 24 ++ w.extractLsb' 0 8 = w.extractLsb' 0 32 :=
    BitVec.extractLsb'_append_extractLsb'_eq_extractLsb' rfl
  calc wordOfBytes (w.extractLsb' 0 8) (w.extractLsb' 8 8) (w.extractLsb' 16 8) (w.extractLsb' 24 8)
      = w.extractLsb' 24 8 ++ w.extractLsb' 16 8 ++ w.extractLsb' 8 8 ++ w.extractLsb' 0 8 := rfl
    _ = w.extractLsb' 0 32 := by rw [h32, h321, h3210]
    _ = w := BitVec.extractLsb'_eq_self

theorem decodeBytes_four (b0 b1 b2 b3 : Byte) (rest : List Byte) :
    decodeBytes (b0 :: b1 :: b2 :: b3 :: rest) = (decode (wordOfBytes b0 b1 b2 b3)).map (·, rest) := by
  rw [decodeBytes]
  cases decode (wordOfBytes b0 b1 b2 b3) <;> rfl

theorem decodeBytes_bytesOfWord (w : Word) : decodeBytes (bytesOfWord w) = (decode w).map (·, []) := by
  rw [bytesOfWord, decodeBytes_four, wordOfBytes_bytesOfWord]

/-- At the end of its text a state of a run fetches nothing: the text does not wrap and does not fill the address space
(log 30), so the address after it has no byte. -/
theorem fetch_eq_none_of_isFinal {s : State} (h : RunInv s) (hfin : s.isFinal = true) : s.fetch = none := by
  obtain ⟨-, hcont, -, -, hlt⟩ := (textOk_iff s).mp h.text
  have hpc : s.pc.toNat = (s.entry + s.mem.length) % 2 ^ 64 := by
    rw [(isFinal_iff s).mp hfin, BitVec.toNat_ofNat, four_mul_len h.text]
  have hread : ¬ (Memory.read s.mem s.pc.toNat).isSome = true := by
    rw [read_isSome_iff_of_contiguousFrom hcont]
    rcases Nat.eq_zero_or_pos s.mem.length with hempty | hne
    · omega
    · have := entry_add_length_le h.text hne
      omega
  rw [fetch_of_aligned h.aligned, fetch4_eq_none (by simpa using hread)]

/-- At a word of its text a state of a run is not final and fetches the word's four bytes. -/
theorem fetch_eq_some_of_lt_len {s : State} (h : RunInv s) {k : Nat} (hk : k < s.len)
    (hpc : s.pc = BitVec.ofNat 64 (s.entry + 4 * k)) :
    s.isFinal = false ∧ ∃ b0 b1 b2 b3, s.fetch = some [b0, b1, b2, b3] := by
  obtain ⟨-, hcont, -, -, hlt⟩ := (textOk_iff s).mp h.text
  have hlen := four_mul_len h.text
  have hbound := entry_add_length_le h.text (by omega)
  have hpcNat : s.pc.toNat = s.entry + 4 * k := by
    rw [hpc, BitVec.toNat_ofNat, Nat.mod_eq_of_lt (by omega)]
  constructor
  · rw [← Bool.not_eq_true, isFinal_iff, ← BitVec.toNat_inj, BitVec.toNat_ofNat]
    omega
  · rw [fetch_of_aligned h.aligned]
    exact fetch4_of_contiguousFrom hcont (by omega) (by omega)

/-- The two places a state of a run can be in (R146): at the end of its text, or at a word of it. -/
theorem final_or_at_word {s : State} (h : RunInv s) :
    s.isFinal = true ∨ ∃ k, k < s.len ∧ s.pc = BitVec.ofNat 64 (s.entry + 4 * k) := by
  obtain ⟨k, hk, hpc⟩ := h.inText
  rcases Nat.lt_or_eq_of_le hk with hlt | rfl
  · exact .inr ⟨k, hlt, hpc⟩
  · exact .inl ((isFinal_iff s).mpr hpc)

end Sys2Proof.Proofs
end

section
/-! PROOFS of the family 10_state: what an instruction and a step can do. The write-back, field by field; the inversion of
`exec`, of its faults, and of a step. -/

namespace Sys2Proof.Proofs

open Sys2Proof.Machine Sys2Proof.Safety

/-! ## The write-back -/

section WriteBack

variable (d : ZReg) (s : State) (v : BitVec s.cfg.vl) (a : FPExcSet)

@[simp] theorem frintWriteBack_cfg : (frintWriteBack d s v a).cfg = s.cfg := rfl
@[simp] theorem frintWriteBack_pc : (frintWriteBack d s v a).pc = s.pc + 4#64 := rfl
@[simp] theorem frintWriteBack_p : (frintWriteBack d s v a).p = s.p := rfl
@[simp] theorem frintWriteBack_fpcr : (frintWriteBack d s v a).fpcr = s.fpcr := rfl
@[simp] theorem frintWriteBack_fpsr : (frintWriteBack d s v a).fpsr = fpsrAccumulate s.fpsr a := rfl
@[simp] theorem frintWriteBack_mem : (frintWriteBack d s v a).mem = s.mem := rfl

theorem frintWriteBack_readZ_other {n : ZReg} (h : n ≠ d) : (frintWriteBack d s v a).readZ n = s.readZ n :=
  State.readZ_writeZ_other s d n v h

theorem frintWriteBack_writeZ (x : BitVec s.cfg.vl) :
    frintWriteBack d (s.writeZ d x) v a = frintWriteBack d s v a := by
  unfold frintWriteBack
  rw [State.writeZ_writeZ s d x v]

end WriteBack

/-! ## FPSR (R33 to R35) -/

/-- The three bits the group sets are fields of `FPSR`, so the reserved ones stay as they are (R33, R34). -/
theorem fpsrAccumulate_reserved (v : BitVec 64) (a : FPExcSet) :
    fpsrAccumulate v a &&& ~~~fpsrLiveBits = v &&& ~~~fpsrLiveBits := by
  have hmask : ~~~fpsrLiveBits = ~~~fpsrGroupBits &&& ~~~fpsrLiveBits := by decide
  rw [hmask, ← BitVec.and_assoc, fpsrAccumulate_frame, BitVec.and_assoc]

theorem getLsbD_fpsrBits (a : FPExcSet) :
    a.fpsrBits.getLsbD 0 = a.invalidOp ∧ a.fpsrBits.getLsbD 4 = a.inexact ∧ a.fpsrBits.getLsbD 7 = a.inputDenorm := by
  obtain ⟨x, y, z⟩ := a
  revert x y z
  decide

/-! ## What an instruction can do -/

/-- Every instruction is the shared meaning at the constants of its class (R65), features included (R71). -/
theorem exec_eq_frint_constants (i : Instr) (s : State) :
    exec i s = frint fpRoundInt (featureOf i s) (roundingOf i s.fpcrValue) (exactOf i) i.isMerging (encode i)
      i.operands s := by
  cases i <;> rfl

theorem exec_not_refused (i : Instr) (s : State) (r : Refusal) : exec i s ≠ .refused r := by
  rw [exec_eq_frint_constants]
  exact frint_not_refused _ _ _ _ _ _ _ _ r

/-- What an instruction can do if it answers a next state: its checks passed, no enabled exception was signalled, and the
state is the write-back. -/
theorem exec_next {i : Instr} {s t : State} (h : exec i s = .next t) :
    ∃ f, featureOf i s = true ∧ sizeFmt i.operands.size = some f ∧ s.cfg.sveCheck = .ok ∧
      (frintTraps fpRoundInt f (roundingOf i s.fpcrValue) (exactOf i) i.operands s).isEmpty = true ∧
      t = frintWriteBack i.operands.zd s
        (frintResult fpRoundInt f (roundingOf i s.fpcrValue) (exactOf i) i.isMerging i.operands s)
        (frintFlags fpRoundInt f (roundingOf i s.fpcrValue) (exactOf i) i.operands s) := by
  rw [exec_eq_frint_constants] at h
  exact frint_next h

theorem exec_next_writeBack {i : Instr} {s t : State} (h : exec i s = .next t) :
    ∃ v a, t = frintWriteBack i.operands.zd s v a := by
  obtain ⟨f, -, -, -, -, ht⟩ := exec_next h
  exact ⟨_, _, ht⟩

/-- What the shared meaning can do if it faults: an undefined instruction without the features or the size (R70, R71), an
access trap that the check asks for (R127), or the trap of an enabled exception that is signalled (R129). -/
theorem frint_fault {F : FPRoundIntFn} {feature : Bool} {rounding : FPRounding} {exact merging : Bool} {w : Word}
    {o : Operands} {s : State} {x : Fault} (h : frint F feature rounding exact merging w o s = .fault x) :
    ((feature = false ∨ sizeFmt o.size = none) ∧ x = .undefinedInstruction s.pc w) ∨
    (∃ kind, s.cfg.sveCheck = .trap kind ∧ x = .sveAccessTrap kind s.pc w) ∨
    (∃ f, sizeFmt o.size = some f ∧ (frintTraps F f rounding exact o s).isEmpty = false ∧
      x = .fpTrapped (trapReport (Config.freeTrapSet s.freeSeed) (frintTraps F f rounding exact o s))
        (fpsrAccumulate s.fpsr (Config.freeTrapFlags s.freeSeed)) s.pc w) := by
  cases feature with
  | false =>
    cases h
    exact .inl ⟨.inl rfl, rfl⟩
  | true =>
    cases hs : sizeFmt o.size with
    | none =>
      simp only [frint, hs, takeException] at h
      cases h
      exact .inl ⟨.inr rfl, rfl⟩
    | some f =>
      cases hc : s.cfg.sveCheck with
      | trap kind =>
        simp only [frint, hs, hc, takeException] at h
        cases h
        exact .inr (.inl ⟨kind, rfl, rfl⟩)
      | ok =>
        rw [frint_runs rfl hs hc] at h
        rcases frintOperation_cases F f rounding exact merging w o s with ⟨-, e⟩ | ⟨htraps, e⟩
        · cases e.symm.trans h
        · cases e.symm.trans h
          exact .inr (.inr ⟨f, rfl, htraps, rfl⟩)

theorem exec_fault_pc {i : Instr} {s : State} {x : Fault} (h : exec i s = .fault x) : x.pc = s.pc := by
  rw [exec_eq_frint_constants] at h
  rcases frint_fault h with ⟨-, rfl⟩ | ⟨kind, -, rfl⟩ | ⟨f, -, -, rfl⟩ <;> rfl

/-- A trapped floating-point exception comes from a nonempty set of enabled signalled exceptions, and only accumulates
flags into `FPSR` (R129). -/
theorem exec_fpTrapped {i : Instr} {s : State} {set : FPExcSet} {fpsr : BitVec 64} {pc : Addr} {w : Word}
    (h : exec i s = .fault (.fpTrapped set fpsr pc w)) :
    (∃ f, (frintTraps fpRoundInt f (roundingOf i s.fpcrValue) (exactOf i) i.operands s).isEmpty = false) ∧
      ∃ a, fpsr = fpsrAccumulate s.fpsr a := by
  rw [exec_eq_frint_constants] at h
  rcases frint_fault h with ⟨-, hx⟩ | ⟨kind, -, hx⟩ | ⟨f, -, htraps, hx⟩
  · cases hx
  · cases hx
  · cases hx
    exact ⟨⟨f, htraps⟩, _, rfl⟩

/-! ## What a step can do -/

theorem step_of_fetch_none {s : State} (h : s.fetch = none) : step s = .refused s.noFetch := by
  simp [step, h]

theorem step_of_decodeBytes_ok {s : State} {bytes rest : List Byte} {i : Instr} (hf : s.fetch = some bytes)
    (hd : decodeBytes bytes = .ok (i, rest)) : step s = exec i s := by
  simp [step, hf, hd]

theorem step_of_decodeBytes_error {s : State} {bytes : List Byte} {e : DecodeError} (hf : s.fetch = some bytes)
    (hd : decodeBytes bytes = .error e) : step s = .refused (refuseWord e (fetchedWord bytes) s) := by
  simp [step, hf, hd]

/-- A step that answers a next state fetched something and wrote an instruction's result back. -/
theorem step_next_writeBack {s t : State} (h : step s = .next t) :
    s.fetch ≠ none ∧ ∃ d v a, t = frintWriteBack d s v a := by
  obtain ⟨bytes, i, rest, hf, -, he⟩ := step_next h
  obtain ⟨v, a, ht⟩ := exec_next_writeBack he
  exact ⟨by simp [hf], _, v, a, ht⟩

/-- Every branch of the row test answers an instruction or one of the two errors about a whole word. -/
theorem decode_ne_truncated (w : Word) : decode w ≠ .error .truncated := by
  unfold decode decodeRow
  repeat' refine iteInduction (motive := fun r => r ≠ Except.error DecodeError.truncated) (fun _ => ?_) (fun _ => ?_)
  all_goals nofun

/-- A step whose fetch gives four bytes is refused only because the word they form is outside the group (R73, R74). -/
theorem step_refused_of_four {s : State} {b0 b1 b2 b3 : Byte} {r : Refusal} (hf : s.fetch = some [b0, b1, b2, b3])
    (h : step s = .refused r) : ∃ w, r = .notInGroup s.pc w ∨ r = .selectorNotDescribed s.pc w := by
  have hd := decodeBytes_four b0 b1 b2 b3 []
  cases hw : decode (wordOfBytes b0 b1 b2 b3) with
  | ok i =>
    rw [step_of_decodeBytes_ok hf (by rw [hd, hw]; rfl)] at h
    exact absurd h (exec_not_refused i s r)
  | error e =>
    rw [step_of_decodeBytes_error hf (by rw [hd, hw]; rfl)] at h
    cases h
    cases e with
    | truncated => exact absurd hw (decode_ne_truncated _)
    | selectorNotDescribed => exact ⟨_, .inr rfl⟩
    | notInGroup => exact ⟨_, .inl rfl⟩

end Sys2Proof.Proofs
end

section
/-! PROOFS of the family 10_state: the invariant of runs, the program text and the control state (O44, O47, O8, O45, O21,
O22, O24, O15, O32). -/

namespace Sys2Proof.Proofs

open Sys2Proof.Machine Sys2Proof.Safety

/-! ## The invariant -/

/-- The write-back of an instruction at a word of the text keeps the invariant: `pc` moves on to the next word or to the end
of the text, and everything else the invariant speaks of is left alone. -/
theorem runInv_frintWriteBack {s : State} (h : RunInv s) {k : Nat} (hk : k < s.len)
    (hpc : s.pc = BitVec.ofNat 64 (s.entry + 4 * k)) (d : ZReg) (v : BitVec s.cfg.vl) (a : FPExcSet) :
    RunInv (frintWriteBack d s v a) := by
  have hmem : (frintWriteBack d s v a).mem = s.mem := rfl
  have hne : 0 < s.mem.length := by
    have := four_mul_len h.text
    omega
  refine ⟨textOk_of_mem_eq hmem hne h.text, ⟨k + 1, hk, ?_⟩, ?_, h.vl, ?_⟩
  · rw [entry_eq_of_mem_eq hmem hne, frintWriteBack_pc, hpc, ← BitVec.ofNat_add]
    congr 1
  · have := h.aligned
    rw [frintWriteBack_pc, BitVec.toNat_add, BitVec.toNat_ofNat]
    omega
  · have := h.reserved
    simpa [reservedZero, fpsrAccumulate_reserved] using this

/-- A step that answers a next state is taken at a word of the text. -/
theorem at_word_of_step_next {s t : State} (h : RunInv s) (hstep : step s = .next t) :
    ∃ k, k < s.len ∧ s.pc = BitVec.ofNat 64 (s.entry + 4 * k) := by
  refine (final_or_at_word h).resolve_left fun hfin => ?_
  exact (step_next_writeBack hstep).1 (fetch_eq_none_of_isFinal h hfin)

/-- Settles O44: a completed step was taken at a word of the text, and its write-back keeps the invariant. -/
theorem stepKeepsTheInvariant : Obligations.StepKeepsTheInvariant := by
  intro s t h hstep
  obtain ⟨k, hk, hpc⟩ := at_word_of_step_next h hstep
  obtain ⟨-, d, v, a, rfl⟩ := step_next_writeBack hstep
  exact runInv_frintWriteBack h hk hpc d v a

/-- Settles O45: the reset state has the empty text, so `pc` is its end. -/
theorem resetMeetsTheInvariant : Obligations.ResetMeetsTheInvariant where
  text := by decide
  inText := ⟨0, by decide, by decide⟩
  aligned := by decide
  vl := by decide
  reserved := by decide

theorem step_of_isFinal {s : State} (h : RunInv s) (hfin : s.isFinal = true) : step s = .refused (.endOfRun s.pc) := by
  rw [step_of_fetch_none (fetch_eq_none_of_isFinal h hfin)]
  simp [State.noFetch, (pcAligned_iff s).mpr h.aligned, hfin]

/-- In a state of a run that is not final, only a word outside the group is refused. -/
theorem step_refused_of_not_final {s : State} {r : Refusal} (h : RunInv s) (hfin : s.isFinal = false)
    (hstep : step s = .refused r) : ∃ w, r = .notInGroup s.pc w ∨ r = .selectorNotDescribed s.pc w := by
  obtain ⟨k, hk, hpc⟩ := (final_or_at_word h).resolve_left (by simp [hfin])
  obtain ⟨-, b0, b1, b2, b3, hfetch⟩ := fetch_eq_some_of_lt_len h hk hpc
  exact step_refused_of_four hfetch hstep

/-- Settles O47, by the two places a state of a run can be in. -/
theorem pcNeverLeavesTheText : Obligations.PcNeverLeavesTheText := by
  intro s h
  refine ⟨⟨fun hend => ?_, step_of_isFinal h⟩, fun r hstep hfin => step_refused_of_not_final h hfin hstep⟩
  by_contra hfin
  obtain ⟨w, hr | hr⟩ := step_refused_of_not_final h (by simpa using hfin) hend
  · cases hr
  · cases hr

/-- Settles O8: the fetched bytes form the word again, and the step runs what they decode to. -/
theorem stepRunsTheDecodedInstruction : Obligations.StepRunsTheDecodedInstruction := by
  intro s w i hal hw hd
  have hbytes : decodeBytes (bytesOfWord w) = .ok (i, []) := by
    rw [decodeBytes_bytesOfWord, hd]
    rfl
  exact step_of_decodeBytes_ok (fetch_of_wordAt hal hw) hbytes

/-! ## What a completed instruction changes -/

/-- Settles O21: the write-back for a next state, the exception record for a fault. -/
theorem completedInstructionFrame : Obligations.CompletedInstructionFrame := by
  intro i s
  constructor
  · intro t ht
    obtain ⟨v, a, rfl⟩ := exec_next_writeBack ht
    refine ⟨⟨v, fpsrAccumulate s.fpsr a, rfl⟩, rfl, fun n hn => ?_, fun _ => rfl, rfl, ?_, fun _ => rfl⟩
    · rw [frintWriteBack_readZ_other _ _ _ _ hn]
      rfl
    · exact fpsrAccumulate_frame s.fpsr a
  · intro x hx
    refine ⟨exec_fault_pc hx, fun set fpsr pc w hset => ?_⟩
    subst hset
    obtain ⟨-, a, rfl⟩ := exec_fpTrapped hx
    exact fpsrAccumulate_frame s.fpsr a

/-- Settles O22: the write-back advances `pc`, the exception record does not. -/
theorem pcAdvancesByFourOrStays : Obligations.PcAdvancesByFourOrStays := by
  intro i s
  refine ⟨fun t ht => ?_, fun x hx => exec_fault_pc hx⟩
  obtain ⟨v, a, rfl⟩ := exec_next_writeBack ht
  rw [frintWriteBack_pc, BitVec.toNat_add]
  rfl

/-! ## Runs -/

/-- What a run of `k + 1` steps is if it answers a next state: a step, and then a run of `k` steps. -/
theorem run_succ_next {M : Host.Core} {k : Nat} {s t : M.State} (h : M.run (k + 1) s = .next t) :
    ∃ u, M.step s = .next u ∧ M.run k u = .next t := by
  rw [Host.Core.run] at h
  split at h
  · next u hs => exact ⟨u, hs, h⟩
  · cases h
  · cases h

/-- A bit that stays 1 from `u` to `v` and from `v` to `w` stays 1 from `u` to `w` (R35). -/
theorem keeps_bits_trans {u v w : BitVec 64} (hvu : v &&& u = u) (hwv : w &&& v = v) : w &&& u = u := by
  rw [← hvu, ← BitVec.and_assoc, hwv]

/-- Settles O24, by induction on the number of steps. -/
theorem runsKeepControlStateAndStickyFlags : Obligations.RunsKeepControlStateAndStickyFlags := by
  intro k
  induction k with
  | zero =>
    intro s t h
    cases h
    exact ⟨rfl, rfl, fun _ => rfl, rfl, by simp, BitVec.and_self⟩
  | succ k ih =>
    intro s t h
    obtain ⟨u, hstep, hrun⟩ := run_succ_next h
    obtain ⟨hcfg, hfpcr, hp, hmem, hpc, hfpsr⟩ := ih u t hrun
    obtain ⟨-, d, v, a, rfl⟩ := step_next_writeBack hstep
    refine ⟨hcfg, hfpcr, hp, hmem, ?_, ?_⟩
    · rw [hpc, frintWriteBack_pc, BitVec.add_assoc, ← BitVec.ofNat_add]
      congr 2
      omega
    · refine keeps_bits_trans ?_ hfpsr
      rw [frintWriteBack_fpsr, BitVec.and_comm]
      exact fpsrAccumulate_keeps s.fpsr a

/-! ## FPCR (R29, R31) -/

/-- None of the bits that are fields without `FPTrapSupport` is a trap enable (R29). -/
theorem fpcrLiveBits_and_trapBits {c : Config} (h : c.fpTrapSupport = false) : fpcrLiveBits c &&& fpcrTrapBits = 0#64 := by
  cases hafp : c.haveAFP
  · simp only [fpcrLiveBits, h, hafp]
    decide
  · simp only [fpcrLiveBits, h, hafp]
    decide

theorem fpcrValue_and_trapBits {s : State} (h : s.cfg.fpTrapSupport = false) : s.fpcrValue &&& fpcrTrapBits = 0#64 := by
  rw [State.fpcrValue, BitVec.and_assoc, fpcrLiveBits_and_trapBits h, BitVec.and_zero]

/-- Where the six trap-enable bits read as zero no exception is enabled (R29, R102). -/
theorem enabledTraps_eq_none {v : BitVec 64} (h : v &&& fpcrTrapBits = 0#64) : enabledTraps v = .none := by
  have hbit : ∀ j, fpcrTrapBits.getLsbD j = true → v.getLsbD j = false := by
    intro j hj
    have := congrArg (BitVec.getLsbD · j) h
    simpa [hj] using this
  rw [enabledTraps, fpcrIOE, fpcrIXE, fpcrIDE, hbit 8 (by decide), hbit 12 (by decide), hbit 15 (by decide)]
  rfl

theorem inter_none_isEmpty (a : FPExcSet) : (a.inter .none).isEmpty = true := by
  simp [FPExcSet.inter, FPExcSet.none, FPExcSet.isEmpty]

/-- Settles O15: a trap needs an enabled exception, and none is enabled. -/
theorem noFloatingPointTrapWithoutSupport : Obligations.NoFloatingPointTrapWithoutSupport := by
  intro i s h
  have henabled : enabledTraps s.fpcrValue = .none := enabledTraps_eq_none (fpcrValue_and_trapBits h)
  refine ⟨fpcrValue_and_trapBits h, henabled, fun set fpsr pc w htrap => ?_⟩
  obtain ⟨⟨f, hf⟩, -⟩ := exec_fpTrapped htrap
  rw [frintTraps, henabled, inter_none_isEmpty] at hf
  cases hf

/-- Settles O32: `FPRoundingMode` depends on the two bits of `RMode` alone, and each of their four values is one case. -/
theorem roundingModeFollowsRMode : Obligations.RoundingModeFollowsRMode := by
  intro v
  unfold fpRoundingMode fpcrRMode
  generalize v.extractLsb' 22 2 = rmode
  revert rmode
  decide

end Sys2Proof.Proofs
end

section
/-! PROOFS of the family 10_state: a zeroing form does not read its old destination (O28). Each part of the shared
operation reads the vector registers through `Z[n]`, and through `Z[d]` only when merging. -/

namespace Sys2Proof.Proofs

open Sys2Proof.Machine Sys2Proof.Safety

section OldDestination

variable (F : FPRoundIntFn) (f : Fmt) (rounding : FPRounding) (exact : Bool) (o : Operands) (s : State) (d : ZReg)
  (x : BitVec s.cfg.vl)

theorem frintOperand_writeZ (h : o.zn ≠ d) : frintOperand f o (s.writeZ d x) = frintOperand f o s := by
  unfold frintOperand
  rw [State.readZ_writeZ_other s d o.zn x h]
  rfl

theorem frintFlags_writeZ (h : o.zn ≠ d) :
    frintFlags F f rounding exact o (s.writeZ d x) = frintFlags F f rounding exact o s := by
  unfold frintFlags
  rw [frintOperand_writeZ f o s d x h]
  rfl

theorem frintTraps_writeZ (h : o.zn ≠ d) :
    frintTraps F f rounding exact o (s.writeZ d x) = frintTraps F f rounding exact o s := by
  rw [frintTraps, frintFlags_writeZ F f rounding exact o s d x h, State.writeZ_fpcrValue, frintTraps]

theorem frintResult_zeroing_writeZ (h : o.zn ≠ d) :
    frintResult F f rounding exact false o (s.writeZ d x) = frintResult F f rounding exact false o s := by
  unfold frintResult
  rw [frintOperand_writeZ f o s d x h]
  rfl

theorem takeException_writeZ (c : Exc) (w : Word) : takeException c w (s.writeZ d x) = takeException c w s := by
  cases c <;> rfl

theorem frintOperation_zeroing_writeZ (w : Word) (h : o.zn ≠ o.zd) :
    frintOperation F f rounding exact false w o (s.writeZ o.zd x) = frintOperation F f rounding exact false w o s := by
  unfold frintOperation
  rw [frintTraps_writeZ F f rounding exact o s o.zd x h, frintFlags_writeZ F f rounding exact o s o.zd x h,
    frintResult_zeroing_writeZ F f rounding exact o s o.zd x h, takeException_writeZ, frintWriteBack_writeZ]

theorem frint_zeroing_writeZ (feature : Bool) (w : Word) (h : o.zn ≠ o.zd) :
    frint F feature rounding exact false w o (s.writeZ o.zd x) = frint F feature rounding exact false w o s := by
  simp only [frint, takeException_writeZ, State.writeZ_cfg, frintOperation_zeroing_writeZ F _ rounding exact o s x w h]

end OldDestination

/-- Settles O28: the shared operation at the zeroing constants reads `Z[n]` only. -/
theorem zeroingFormsIgnoreTheOldDestination : Obligations.ZeroingFormsIgnoreTheOldDestination := by
  intro i s x hzeroing hne
  have hfeature : featureOf i (s.writeZ i.operands.zd x) = featureOf i s := rfl
  rw [exec_eq_frint_constants, exec_eq_frint_constants, hfeature, State.writeZ_fpcrValue, hzeroing,
    frint_zeroing_writeZ _ _ _ _ _ _ _ _ hne]

end Sys2Proof.Proofs
end

section
/-! PROOFS of the family 10_state: when a scalar rounding signals each exception (40_frint_operation.md R93 to R100), over
the rationals. -/

namespace Sys2Proof.Proofs

open Sys2Proof.Machine Sys2Proof.Safety

/-! ## The exact value of a finite operand (R91) -/

/-- The value is the significand scaled by the operand's exponent, for normal numbers and denormals alike. -/
theorem fpToRat_eq_significand (f : Fmt) (x : BitVec f.bits) :
    fpToRat f x = (if fpSign f x then -1 else 1) *
      ((fpSignificand f x : ℚ) * 2 ^ ((fpEffExp f x : ℤ) - ((f.bias + f.fracBits : ℕ) : ℤ))) := by
  unfold fpToRat fpSignificand fpEffExp
  by_cases h : fpExp f x = 0
  · simp only [h, if_true]
    congr 3
    push_cast
    ring
  · simp only [h, if_false]
    have hsplit : ((fpExp f x : ℤ) - (f.bias : ℤ)) =
        (fpExp f x : ℤ) - ((f.bias + f.fracBits : ℕ) : ℤ) + (f.fracBits : ℤ) := by
      push_cast
      ring
    rw [hsplit, zpow_add₀ (by norm_num : (2 : ℚ) ≠ 0), zpow_natCast]
    push_cast
    field_simp

/-- A power of two with an integer exponent as a quotient of two with natural ones, of which one is 1. -/
theorem two_zpow_sub (a b : ℕ) : (2 : ℚ) ^ ((a : ℤ) - (b : ℤ)) = 2 ^ (a - b) / 2 ^ (b - a) := by
  have h : (a : ℤ) - (b : ℤ) = ((a - b : ℕ) : ℤ) - ((b - a : ℕ) : ℤ) := by omega
  rw [h, zpow_sub₀ (by norm_num : (2 : ℚ) ≠ 0), zpow_natCast, zpow_natCast]

/-- The value is the model's numerator over its power-of-two denominator (R91). -/
theorem fpToRat_eq_num_div (f : Fmt) (x : BitVec f.bits) : fpToRat f x = (fpNum f x : ℚ) / 2 ^ fpDenExp f x := by
  rw [fpToRat_eq_significand, two_zpow_sub, fpNum, fpDenExp]
  cases fpSign f x <;> simp <;> ring

theorem fpErr_eq_zero_iff (num : ℤ) (k : ℕ) : fpErr num k = 0 ↔ ∃ n : ℤ, (num : ℚ) / 2 ^ k = n := by
  have hpos : (0 : ℤ) < (2 ^ k : ℕ) := by positivity
  have hmod : fpErr num k = 0 ↔ ((2 ^ k : ℕ) : ℤ) ∣ num := by
    rw [fpErr, Int.dvd_iff_emod_eq_zero]
    have := Int.emod_nonneg num hpos.ne'
    omega
  rw [hmod]
  refine exists_congr fun n => ?_
  rw [div_eq_iff (by positivity), mul_comm]
  exact_mod_cast Iff.rfl

/-- The model's remainder is 0 exactly for the operands that are integers (R96, R98). -/
theorem fpErr_num_eq_zero_iff (f : Fmt) (x : BitVec f.bits) :
    fpErr (fpNum f x) (fpDenExp f x) = 0 ↔ ∃ n : ℤ, fpToRat f x = n := by
  rw [fpErr_eq_zero_iff, fpToRat_eq_num_div]

theorem fpToRat_of_zero {f : Fmt} {x : BitVec f.bits} (he : fpExp f x = 0) (hf : fpFrac f x = 0) : fpToRat f x = 0 := by
  simp [fpToRat, he, hf]

/-! ## The classes of R93 -/

theorem expMax_ne_zero (f : Fmt) : f.expMax ≠ 0 := by cases f <;> decide

theorem fpIsDenormal_iff (f : Fmt) (x : BitVec f.bits) : fpIsDenormal f x = true ↔ IsDenormal f x := by
  simp [fpIsDenormal, IsDenormal]

theorem fpClassify_eq_signallingNaN_iff (f : Fmt) (x : BitVec f.bits) (fpcr : BitVec 64) :
    fpClassify f x fpcr = .signallingNaN ↔ IsSignallingNaN f x := by
  unfold fpClassify IsSignallingNaN IsNaN
  split_ifs <;> simp_all

theorem fpClassify_eq_flushed_iff (f : Fmt) (x : BitVec f.bits) (fpcr : BitVec 64) :
    fpClassify f x fpcr = .zero true ↔ IsDenormal f x ∧ fpFlushes f fpcr = true := by
  by_cases h : IsDenormal f x ∧ fpFlushes f fpcr = true
  · have hcond : (fpIsDenormal f x && fpFlushes f fpcr) = true := by rwa [Bool.and_eq_true, fpIsDenormal_iff]
    obtain ⟨⟨he, hf⟩, -⟩ := id h
    have hfin : ¬ fpExp f x = f.expMax := he ▸ (expMax_ne_zero f).symm
    have hnonzero : ¬ (fpExp f x = 0 ∧ fpFrac f x = 0) := fun hz => hf hz.2
    refine iff_of_true ?_ h
    rw [fpClassify, if_neg hfin, if_neg hnonzero, if_pos hcond]
  · have hcond : ¬ (fpIsDenormal f x && fpFlushes f fpcr) = true := by rwa [Bool.and_eq_true, fpIsDenormal_iff]
    refine iff_of_false ?_ h
    rw [fpClassify, if_neg hcond]
    split_ifs <;> simp

theorem fpClassify_eq_nonzero_iff (f : Fmt) (x : BitVec f.bits) (fpcr : BitVec 64) :
    fpClassify f x fpcr = .nonzero ↔
      IsFinite f x ∧ ¬ (fpExp f x = 0 ∧ fpFrac f x = 0) ∧ ¬ (IsDenormal f x ∧ fpFlushes f fpcr = true) := by
  rw [← fpIsDenormal_iff, ← Bool.and_eq_true]
  unfold fpClassify IsFinite
  split_ifs <;> simp_all

/-! ## The exceptions -/

section Signals

variable (f : Fmt) (x : BitVec f.bits) (fpcr : BitVec 64) (rounding : FPRounding) (exact : Bool)

/-- Invalid Operation is signalled exactly for a signalling NaN (R100). -/
theorem fpRoundIntFlags_invalidOp_iff :
    (fpRoundIntFlags f x fpcr rounding exact).invalidOp = true ↔ IsSignallingNaN f x := by
  rw [← fpClassify_eq_signallingNaN_iff f x fpcr, fpRoundIntFlags]
  cases fpClassify f x fpcr <;> simp [FPExcSet.none]

/-- Inexact is signalled exactly when `exact` is TRUE and the operand is finite, not an integer and not flushed (R98). -/
theorem fpRoundIntFlags_inexact_iff :
    (fpRoundIntFlags f x fpcr rounding exact).inexact = true ↔ exact = true ∧ IsFinite f x ∧
      (¬ ∃ n : ℤ, fpToRat f x = n) ∧ ¬ (IsDenormal f x ∧ fpFlushes f fpcr = true) := by
  have hclass : (fpRoundIntFlags f x fpcr rounding exact).inexact = true ↔
      fpClassify f x fpcr = .nonzero ∧ exact = true ∧ ¬ ∃ n : ℤ, fpToRat f x = n := by
    rw [← fpErr_num_eq_zero_iff, fpRoundIntFlags]
    cases fpClassify f x fpcr <;> simp [FPExcSet.none]
  have hzero : (¬ ∃ n : ℤ, fpToRat f x = n) → ¬ (fpExp f x = 0 ∧ fpFrac f x = 0) :=
    fun hint ⟨he, hf⟩ => hint ⟨0, by rw [fpToRat_of_zero he hf, Int.cast_zero]⟩
  rw [hclass, fpClassify_eq_nonzero_iff]
  tauto

/-- A flush that signals is a flush, of 32- or 64-bit elements with `FZ = 1` and `AH = 0` (R95). -/
theorem fpFlushes_and_signals_iff :
    fpFlushes f fpcr = true ∧ fpFlushSignals f fpcr = true ↔ f ≠ .half ∧ fpcrFZ fpcr = true ∧ fpcrAH fpcr = false := by
  cases f with
  | half => simp [fpFlushSignals]
  | single => simp [fpFlushes, fpFlushSignals, fpFlushFZ]; tauto
  | double => simp [fpFlushes, fpFlushSignals, fpFlushFZ]; tauto

/-- Input Denormal is signalled exactly for a denormal whose flush signals (R95). -/
theorem fpRoundIntFlags_inputDenorm_iff :
    (fpRoundIntFlags f x fpcr rounding exact).inputDenorm = true ↔
      (f ≠ .half ∧ fpcrFZ fpcr = true ∧ fpcrAH fpcr = false) ∧ IsDenormal f x := by
  have hclass : (fpRoundIntFlags f x fpcr rounding exact).inputDenorm = true ↔
      fpClassify f x fpcr = .zero true ∧ fpFlushSignals f fpcr = true := by
    rw [fpRoundIntFlags]
    cases fpClassify f x fpcr <;> simp [FPExcSet.none]
  rw [hclass, fpClassify_eq_flushed_iff, ← fpFlushes_and_signals_iff]
  tauto

end Signals

end Sys2Proof.Proofs
end

section
/-! PROOFS of the family 10_state: when a completed instruction sets each bit of `FPSR` (O23). The flag loop is the union
over the active elements, and each of the three exceptions is one projection of it (R105). -/

namespace Sys2Proof.Proofs

open Sys2Proof.Machine Sys2Proof.Safety

/-- An exception of the set: a projection that the empty set does not have and a union has when one of its parts has it. -/
structure IsMember (member : FPExcSet → Bool) : Prop where
  none : member .none = false
  union : ∀ a b : FPExcSet, member (a.union b) = (member a || member b)

theorem isMember_invalidOp : IsMember FPExcSet.invalidOp := ⟨rfl, fun _ _ => rfl⟩
theorem isMember_inexact : IsMember FPExcSet.inexact := ⟨rfl, fun _ _ => rfl⟩
theorem isMember_inputDenorm : IsMember FPExcSet.inputDenorm := ⟨rfl, fun _ _ => rfl⟩

/-- The flag loop holds an exception exactly when one of the active elements it has passed signals it (R105). -/
theorem flagLoop_member_iff {member : FPExcSet → Bool} (hm : IsMember member) {n k : Nat} (F : FPRoundIntFn) (f : Fmt)
    (fpcr : BitVec 64) (rounding : FPRounding) (exact : Bool) (mask : BitVec k) (operand : BitVec n) (count : Nat) :
    member (flagLoop F f fpcr rounding exact mask operand count) = true ↔
      ∃ e, (e < count ∧ activeElement mask e f = true) ∧
        member (F.flags f (element f operand e) fpcr rounding exact) = true := by
  induction count with
  | zero => simp [flagLoop, hm.none]
  | succ c ih =>
    cases ha : activeElement mask c f with
    | false =>
      rw [flagLoop_succ_inactive ha, ih]
      refine exists_congr fun e => and_congr_left fun _ => and_congr_left fun hact => ?_
      have : e ≠ c := by
        rintro rfl
        simp [ha] at hact
      omega
    | true =>
      rw [flagLoop_succ_active ha, hm.union, Bool.or_eq_true, ih]
      constructor
      · rintro (⟨e, ⟨he, hact⟩, hsig⟩ | hsig)
        · exact ⟨e, ⟨by omega, hact⟩, hsig⟩
        · exact ⟨c, ⟨by omega, ha⟩, hsig⟩
      · rintro ⟨e, ⟨he, hact⟩, hsig⟩
        rcases Nat.lt_succ_iff_lt_or_eq.mp he with hlt | rfl
        · exact .inl ⟨e, ⟨hlt, hact⟩, hsig⟩
        · exact .inr hsig

/-- With an active element the operand is `Z[n]` (R83, R85). -/
theorem frintOperand_of_active {f : Fmt} {o : Operands} {s : State} {e : Nat} (h : Active f o s e) :
    frintOperand f o s = s.readZ o.zn :=
  if_pos ((anyActiveBelow_iff _ _ _).mpr ⟨e, h⟩)

/-- An instruction signals an exception exactly when some active element does (R89, R105). -/
theorem frintFlags_member_iff {member : FPExcSet → Bool} (hm : IsMember member) (F : FPRoundIntFn) (f : Fmt)
    (rounding : FPRounding) (exact : Bool) (o : Operands) (s : State) :
    member (frintFlags F f rounding exact o s) = true ↔
      SomeActive f o s fun x => member (F.flags f x s.fpcrValue rounding exact) = true := by
  rw [frintFlags, flagLoop_member_iff hm]
  refine exists_congr fun e => and_congr_right fun hact => ?_
  rw [frintOperand_of_active hact]

theorem someActive_congr {f : Fmt} {o : Operands} {s : State} {P Q : BitVec f.bits → Prop} (h : ∀ x, P x ↔ Q x) :
    SomeActive f o s P ↔ SomeActive f o s Q :=
  exists_congr fun _ => and_congr_right fun _ => h _

theorem someActive_and_left {f : Fmt} {o : Operands} {s : State} {c : Prop} {P : BitVec f.bits → Prop} :
    (SomeActive f o s fun x => c ∧ P x) ↔ c ∧ SomeActive f o s P := by
  simp only [SomeActive, and_left_comm, exists_and_left]

/-- Each cumulative bit after accumulation is the old one or the exception's (R33, R35). -/
theorem getLsbD_fpsrAccumulate (v : BitVec 64) (a : FPExcSet) :
    (fpsrAccumulate v a).getLsbD 0 = (v.getLsbD 0 || a.invalidOp) ∧
    (fpsrAccumulate v a).getLsbD 4 = (v.getLsbD 4 || a.inexact) ∧
    (fpsrAccumulate v a).getLsbD 7 = (v.getLsbD 7 || a.inputDenorm) := by
  obtain ⟨h0, h4, h7⟩ := getLsbD_fpsrBits a
  simp only [fpsrAccumulate, BitVec.getLsbD_or, h0, h4, h7, and_self]

/-- Settles O23: each bit is the old one or an exception some active element signals. -/
theorem fpsrBitsAreSetExactlyWhen : Obligations.FpsrBitsAreSetExactlyWhen := by
  intro i s t f hsize ht
  obtain ⟨f', -, hsize', -, -, rfl⟩ := exec_next ht
  obtain rfl : f' = f := Option.some.inj (hsize'.symm.trans hsize)
  obtain ⟨h0, h4, h7⟩ := getLsbD_fpsrAccumulate s.fpsr
    (frintFlags fpRoundInt f' (roundingOf i s.fpcrValue) (exactOf i) i.operands s)
  rw [frintWriteBack_fpsr, h0, h4, h7, Bool.or_eq_true, Bool.or_eq_true, Bool.or_eq_true,
    frintFlags_member_iff isMember_invalidOp, frintFlags_member_iff isMember_inexact,
    frintFlags_member_iff isMember_inputDenorm]
  refine ⟨or_congr_right ?_, or_congr_right ?_, or_congr_right ?_⟩
  · exact someActive_congr fun x => fpRoundIntFlags_invalidOp_iff f' x _ (roundingOf i s.fpcrValue) (exactOf i)
  · have hinexact := fun x => fpRoundIntFlags_inexact_iff f' x s.fpcrValue (roundingOf i s.fpcrValue) (exactOf i)
    exact (someActive_congr hinexact).trans someActive_and_left
  · have hdenorm := fun x => fpRoundIntFlags_inputDenorm_iff f' x s.fpcrValue (roundingOf i s.fpcrValue) (exactOf i)
    refine ((someActive_congr hdenorm).trans someActive_and_left).trans ?_
    rw [and_assoc, and_assoc]

end Sys2Proof.Proofs
end

section
/-! PROOFS of the family 20_memory: the byte lanes of a fetched word (O9), and the word loaded at `pc` (O10). -/

namespace Sys2Proof.Proofs

open Sys2Proof.Machine Sys2Proof.Safety

/-! ## The byte lanes of a word (R47) -/

section ByteLanes

variable (b0 b1 b2 b3 : Byte)

/-- Each of the four bytes is one lane of the word they form, in the order of their addresses. -/
theorem bytesOfWord_wordOfBytes : bytesOfWord (wordOfBytes b0 b1 b2 b3) = [b0, b1, b2, b3] := by
  rw [bytesOfWord, wordOfBytes]
  congr
  · rw [BitVec.extractLsb'_append_eq_of_add_le (by decide), BitVec.extractLsb'_eq_self]
  · rw [BitVec.extractLsb'_append_eq_of_le (by decide), BitVec.extractLsb'_append_eq_of_add_le (by decide),
      BitVec.extractLsb'_eq_self]
  · rw [BitVec.extractLsb'_append_eq_of_le (by decide), BitVec.extractLsb'_append_eq_of_le (by decide),
      BitVec.extractLsb'_append_eq_of_add_le (by decide), BitVec.extractLsb'_eq_self]
  · rw [BitVec.extractLsb'_append_eq_of_le (by decide), BitVec.extractLsb'_append_eq_of_le (by decide),
      BitVec.extractLsb'_append_eq_of_le (by decide), BitVec.extractLsb'_eq_self]

/-- Four bytes are an instruction exactly when the word they form is, and no byte is left over (R58). -/
theorem decodeBytes_four_eq_ok_iff {i : Instr} {rest : List Byte} :
    decodeBytes [b0, b1, b2, b3] = .ok (i, rest) ↔ decode (wordOfBytes b0 b1 b2 b3) = .ok i ∧ rest = [] := by
  rw [decodeBytes_four]
  cases decode (wordOfBytes b0 b1 b2 b3) with
  | ok j => simp [Except.map, eq_comm]
  | error e => simp [Except.map]

end ByteLanes

/-- Settles O9: the four bytes are fetched, and the word's lanes give them back. -/
theorem fetchedWordIsLittleEndian : Obligations.FetchedWordIsLittleEndian := by
  refine ⟨fun s b0 b1 b2 b3 hal h0 h1 h2 h3 => ?_, by decide⟩
  have hfetch : s.fetch = some [b0, b1, b2, b3] := by rw [fetch_of_aligned hal, fetch4_eq_some h0 h1 h2 h3]
  obtain ⟨hb0, hb1, hb2, hb3⟩ := by simpa [bytesOfWord] using bytesOfWord_wordOfBytes b0 b1 b2 b3
  exact ⟨_, hfetch, hb0, hb1, hb2, hb3, fun _ _ => decodeBytes_four_eq_ok_iff b0 b1 b2 b3⟩

/-! ## Reading after placing bytes -/

/-- Every byte placed reads back: the bytes after it go to higher addresses. -/
theorem read_writeBytes_of_lt {bytes : List Byte} {m : Memory} {a k : Nat} (hk : k < bytes.length) :
    Memory.read (Memory.writeBytes m a bytes) (a + k) = some bytes[k] := by
  induction bytes generalizing m a k with
  | nil => nomatch hk
  | cons v rest ih =>
    rw [Memory.writeBytes]
    cases k with
    | zero => exact (Memory.read_writeBytes_below (Nat.lt_succ_self a)).trans (Memory.read_write_same m a v)
    | succ k =>
      rw [← Nat.add_assoc, Nat.add_right_comm]
      exact ih (Nat.lt_of_succ_lt_succ hk)

/-- An address outside the ones written reads as before. -/
theorem read_writeBytes_of_outside {bytes : List Byte} {m : Memory} {a b : Nat} (h : b < a ∨ a + bytes.length ≤ b) :
    Memory.read (Memory.writeBytes m a bytes) b = Memory.read m b := by
  induction bytes generalizing m a with
  | nil => rfl
  | cons v rest ih =>
    rw [List.length_cons] at h
    rw [Memory.writeBytes, ih (by omega), Memory.read_write_other m v (by omega)]

/-! ## The word loaded at `pc` (log 6) -/

theorem wordAt_loadWordAtPc (s : State) (w : Word) : WordAt (s.loadWordAtPc w).mem s.pc.toNat w := by
  have hlane : ∀ k (hk : k < (bytesOfWord w).length),
      Memory.read (s.loadWordAtPc w).mem (s.pc.toNat + k) = some (bytesOfWord w)[k] :=
    fun _ hk => read_writeBytes_of_lt hk
  exact ⟨hlane 0 (by simp [bytesOfWord]), hlane 1 (by simp [bytesOfWord]), hlane 2 (by simp [bytesOfWord]),
    hlane 3 (by simp [bytesOfWord])⟩

theorem decodeTableWord_eq_some_iff {nbits w : Nat} {i : Instr} :
    decodeTableWord nbits w = some i ↔ decode (tableWord nbits w) = .ok i := by
  rw [decodeTableWord, decodeBytes_bytesOfWord]
  cases decode (tableWord nbits w) <;> simp [Except.map]

/-- Settles O10: the loaded word is at `pc`, which loading leaves alone, so the step runs it (O8). -/
theorem loadedWordRunsNext : Obligations.LoadedWordRunsNext := by
  intro s w i hal hd
  refine ⟨?_, fun a ha => read_writeBytes_of_outside ha⟩
  exact stepRunsTheDecodedInstruction (s.withFetchWord 32 w) (tableWord 32 w) i hal (wordAt_loadWordAtPc s _)
    (decodeTableWord_eq_some_iff.mp hd)

end Sys2Proof.Proofs
end

section
/-! PROOFS of the family 30_encoding: the rows and the operand fields. When a word decodes to an instruction, what a
field of an encoded word is, and what a field put back in its place is (R62, R67, R68); the two round trips (O1, O2) and the
operand fields of a decoded word (O5). -/

namespace Sys2Proof.Proofs

open Sys2Proof.Machine Sys2Proof.Safety

/-! ## Rows (R67, R68) -/

/-- A row's match value has no bit in an operand field. -/
theorem matchWord_and_rowMask (i : Instr) : i.matchWord &&& rowMask = i.matchWord := by
  cases i <;> simp only [Instr.matchWord] <;> decide

/-- The fixed bits of every instruction's word are its row's match value. -/
theorem encode_and_rowMask (i : Instr) : encode i &&& rowMask = i.matchWord :=
  Laws.masked_word i.matchWord i.operands (matchWord_and_rowMask i)

/-- The row test finds the row of every match value. -/
theorem decodeRow_matchWord (i : Instr) : decodeRow i.matchWord i.operands = .ok i := by
  cases i <;> rfl

/-- The row test answers only the row whose match value it was asked for, at the operands it was given. -/
theorem eq_of_decodeRow_eq_ok {key : Word} {o : Operands} {i : Instr} :
    decodeRow key o = .ok i → key = i.matchWord ∧ i.operands = o := by
  unfold decodeRow
  repeat' refine iteInduction (motive := (· = Except.ok i → _)) (fun hkey => ?_) (fun _ => ?_)
  all_goals
    intro h
    cases h
  all_goals exact ⟨hkey, rfl⟩

/-- A word decodes to an instruction exactly when its fixed bits are those of the row and its operand fields are the
instruction's (R62, R67, R68). -/
theorem decode_eq_ok_iff {w : Word} {i : Instr} :
    decode w = .ok i ↔ w &&& rowMask = i.matchWord ∧ i.operands = operandsOf w := by
  constructor
  · exact eq_of_decodeRow_eq_ok
  · rintro ⟨hrow, hoperands⟩
    rw [decode, hrow, ← hoperands, decodeRow_matchWord]

/-! ## Operand fields (R62) -/

section Field

variable {k len k' len' : Nat}

/-- A field put back in its place is the word with every other bit cleared. -/
theorem field_in_place (w : Word) :
    (w.extractLsb' k len).setWidth 32 <<< k = w &&& ((BitVec.allOnes len).setWidth 32 <<< k) := by
  ext j hj
  by_cases hk : j < k
  · simp [hk]
  · have hjk : k + (j - k) = j := by omega
    simp [hk, hjk, BitVec.getLsbD_eq_getElem hj, Bool.and_comm]

/-- A field reads back from its place. -/
theorem extractLsb'_field_same (x : BitVec len) (h : k + len ≤ 32) :
    (x.setWidth 32 <<< k).extractLsb' k len = x := by
  ext j hj
  have hlt : k + j < 32 := by omega
  simp [hlt, hj]

/-- A field has no bit in another field's place. -/
theorem extractLsb'_field_other (x : BitVec len') (h : k + len ≤ k' ∨ k' + len' ≤ k) :
    (x.setWidth 32 <<< k' : Word).extractLsb' k len = 0#len := by
  ext j hj
  rcases h with h | h
  · have hlt : k + j < k' := by omega
    simp [hlt]
  · have hge : len' ≤ k + j - k' := by omega
    simp [BitVec.getLsbD_of_ge x _ hge]

end Field

theorem toBits_sizeOfBits : ∀ b : BitVec 2, (sizeOfBits b).toBits = b := by decide

theorem sizeOfBits_toBits (z : Size) : sizeOfBits z.toBits = z := by
  cases z <;> rfl

/-- The four operand fields in their places, each as the bits of its field. -/
theorem operandBits_eq_fields (o : Operands) : operandBits o =
    o.size.toBits.setWidth 32 <<< 22 ||| (BitVec.ofFin o.pg : BitVec 3).setWidth 32 <<< 10 |||
      (BitVec.ofFin o.zn : BitVec 5).setWidth 32 <<< 5 ||| (BitVec.ofFin o.zd : BitVec 5).setWidth 32 <<< 0 := by
  rw [operandBits, BitVec.shiftLeft_zero]
  simp only [← BitVec.ofNat_toNat 32 (BitVec.ofFin _), BitVec.toNat_ofFin]

/-- The operand fields of a word, put back, are the bits of the word outside the fixed bits of the rows. -/
theorem operandBits_operandsOf (w : Word) : operandBits (operandsOf w) = w &&& ~~~rowMask := by
  have hplaces : (BitVec.allOnes 2).setWidth 32 <<< 22 ||| (BitVec.allOnes 3).setWidth 32 <<< 10 |||
      (BitVec.allOnes 5).setWidth 32 <<< 5 ||| (BitVec.allOnes 5).setWidth 32 <<< 0 = ~~~rowMask := by decide
  rw [operandBits_eq_fields, operandsOf, toBits_sizeOfBits, field_in_place, BitVec.ofFin_toFin, field_in_place,
    BitVec.ofFin_toFin, field_in_place, BitVec.ofFin_toFin, field_in_place]
  simp only [← BitVec.and_or_distrib_left, hplaces]

/-- A row's match value is zero in every place that has no fixed bit. -/
theorem extractLsb'_matchWord {k len : Nat} (h : rowMask.extractLsb' k len = 0#len) (i : Instr) :
    i.matchWord.extractLsb' k len = 0#len := by
  rw [← matchWord_and_rowMask, BitVec.extractLsb'_and, h, BitVec.and_zero]

/-- Every operand field of an instruction's word is the operand: it overlaps neither the row's fixed bits nor another
field. -/
theorem fields_encode (i : Instr) :
    (encode i).extractLsb' 22 2 = i.operands.size.toBits ∧ (encode i).extractLsb' 10 3 = BitVec.ofFin i.operands.pg ∧
    (encode i).extractLsb' 5 5 = BitVec.ofFin i.operands.zn ∧
    (encode i).extractLsb' 0 5 = BitVec.ofFin i.operands.zd := by
  simp (disch := decide) only [encode, operandBits_eq_fields, BitVec.extractLsb'_or,
    extractLsb'_matchWord, extractLsb'_field_same, extractLsb'_field_other, BitVec.zero_or, BitVec.or_zero, and_self]

theorem operandsOf_encode (i : Instr) : operandsOf (encode i) = i.operands := by
  obtain ⟨hsize, hpg, hzn, hzd⟩ := fields_encode i
  rw [operandsOf, hsize, hpg, hzn, hzd, sizeOfBits_toBits]

/-! ## The round trips -/

/-- Settles O1: the word has the fixed bits of the instruction's row and the instruction's operands in its fields. -/
theorem decodeOfEncodeIsTheInstruction : Obligations.DecodeOfEncodeIsTheInstruction := fun i =>
  decode_eq_ok_iff.mpr ⟨encode_and_rowMask i, (operandsOf_encode i).symm⟩

/-- Settles O2: the fixed bits of the word are those of the row, and its other bits are those of the operand fields. -/
theorem encodeOfDecodeIsTheWord : Obligations.EncodeOfDecodeIsTheWord := by
  intro w i h
  obtain ⟨hrow, hoperands⟩ := decode_eq_ok_iff.mp h
  have hall : rowMask ||| ~~~rowMask = BitVec.allOnes 32 := by decide
  calc encode i = i.matchWord ||| operandBits i.operands := rfl
    _ = w &&& rowMask ||| w &&& ~~~rowMask := by rw [hrow, hoperands, operandBits_operandsOf]
    _ = w := by rw [← BitVec.and_or_distrib_left, hall, BitVec.and_allOnes]

/-! ## The operands of a decoded word (R63, R64) -/

theorem sizeFmt_sizeOfBits_eq_none_iff : ∀ b : BitVec 2, sizeFmt (sizeOfBits b) = none ↔ b = 0b00#2 := by decide

/-- `esize = 8 << UInt(size)` (R63). -/
theorem bits_of_sizeFmt_sizeOfBits {b : BitVec 2} {f : Fmt} (h : sizeFmt (sizeOfBits b) = some f) :
    f.bits = 8 <<< b.toNat := by
  revert b
  cases f <;> decide

/-- Settles O5: the operands of a decoded word are read from its fields. -/
theorem operandFieldsComeFromTheirBits : Obligations.OperandFieldsComeFromTheirBits := by
  intro w i h
  obtain ⟨-, hoperands⟩ := decode_eq_ok_iff.mp h
  rw [hoperands]
  exact ⟨rfl, rfl, rfl, sizeFmt_sizeOfBits_eq_none_iff _, fun _ => bits_of_sizeFmt_sizeOfBits⟩

end Sys2Proof.Proofs
end

section
/-! PROOFS of the family 30_encoding: the tables of the two formats (O3, O4), and the words outside them (O6). A word's
fixed bits are those its format has in common and the bits that select the class (R67, R68, R73). -/

namespace Sys2Proof.Proofs

open Sys2Proof.Machine Sys2Proof.Safety

/-! ## Words of a row -/

/-- A word decodes to an instruction of the constructor `c` exactly by the per-class test of `c`'s row. -/
theorem exists_decode_iff {c : Operands → Instr} {m : Word} (hoperands : ∀ o, (c o).operands = o)
    (hmatch : ∀ o, (c o).matchWord = m) (w : Word) : (∃ o, decode w = .ok (c o)) ↔ w &&& rowMask = m := by
  simp [decode_eq_ok_iff, hoperands, hmatch]

/-- A word decodes to an instruction with a property exactly when the instruction of its fixed bits and operand fields
has it. -/
theorem exists_decode_and_iff {P : Instr → Prop} (w : Word) :
    (∃ i, decode w = .ok i ∧ P i) ↔ ∃ i, i.operands = operandsOf w ∧ w &&& rowMask = i.matchWord ∧ P i := by
  simp only [decode_eq_ok_iff, and_assoc, and_left_comm]

/-- Fixed bits read from a word of a row are those of the match value. -/
theorem and_eq_matchWord_and {w mask : Word} {i : Instr} (hrow : w &&& rowMask = i.matchWord)
    (hmask : rowMask &&& mask = mask) : w &&& mask = i.matchWord &&& mask := by
  rw [← hrow, BitVec.and_assoc, hmask]

/-- A field of fixed bits of a word of a row is the match value's. -/
theorem extractLsb'_eq_matchWord {w : Word} {i : Instr} {k len : Nat} (hrow : w &&& rowMask = i.matchWord)
    (hfield : rowMask.extractLsb' k len = BitVec.allOnes len) :
    w.extractLsb' k len = i.matchWord.extractLsb' k len := by
  rw [← hrow, BitVec.extractLsb'_and, hfield, BitVec.and_allOnes]

/-! ## The selector of a row (R67, R68) -/

/-- The three bits that select the class within its format: `opc` for a merging row, the selector of format Z for a
zeroing row. The two formats use the same value for the same rounding option. -/
def rowSelector : Instr → BitVec 3
  | .frintnM _ | .frintnZ _ => 0b000#3
  | .frintpM _ | .frintpZ _ => 0b001#3
  | .frintmM _ | .frintmZ _ => 0b010#3
  | .frintzM _ | .frintzZ _ => 0b011#3
  | .frintaM _ | .frintaZ _ => 0b100#3
  | .frintxM _ | .frintxZ _ => 0b110#3
  | .frintiM _ | .frintiZ _ => 0b111#3

/-- No row has the selector 101 (R73). -/
theorem rowSelector_ne (i : Instr) : rowSelector i ≠ 0b101#3 := by
  cases i <;> simp only [rowSelector] <;> decide

/-! ## Format M (R67) -/

/-- `opc`, bits 18:16. -/
def opcOf (w : Word) : BitVec 3 := w.extractLsb' 16 3

/-- The fixed bits of a row are those of format M and `opc`. -/
theorem and_rowMask_eq_opc (w : Word) :
    w &&& rowMask = w &&& 0xFF38E000#32 ||| (opcOf w).setWidth 32 <<< 16 := by
  rw [opcOf, field_in_place, ← BitVec.and_or_distrib_left]
  rfl

theorem opcOf_eq_matchWord {w : Word} {i : Instr} (hrow : w &&& rowMask = i.matchWord) :
    opcOf w = opcOf i.matchWord :=
  extractLsb'_eq_matchWord hrow (by decide)

/-- The match value of a merging row: the fixed bits of format M, and the row's `opc`. -/
theorem matchWord_of_isMerging {i : Instr} (h : i.isMerging = true) :
    i.matchWord &&& 0xFF38E000#32 = 0x6500A000#32 ∧ opcOf i.matchWord = rowSelector i := by
  cases i <;> cases h
  all_goals
    simp only [Instr.matchWord, rowSelector]
    decide

/-- Every `opc` but 101 is the `opc` of a merging row. -/
theorem exists_merging_row {opc : BitVec 3} (h : opc ≠ 0b101#3) (o : Operands) :
    ∃ i : Instr, i.operands = o ∧ 0x6500A000#32 ||| opc.setWidth 32 <<< 16 = i.matchWord ∧ i.isMerging = true := by
  have hvalues : ∀ b : BitVec 3, b = 0b000#3 ∨ b = 0b001#3 ∨ b = 0b010#3 ∨ b = 0b011#3 ∨ b = 0b100#3 ∨ b = 0b101#3 ∨
      b = 0b110#3 ∨ b = 0b111#3 := by decide
  rcases hvalues opc with rfl | rfl | rfl | rfl | rfl | rfl | rfl | rfl
  · exact ⟨.frintnM o, rfl, rfl, rfl⟩
  · exact ⟨.frintpM o, rfl, rfl, rfl⟩
  · exact ⟨.frintmM o, rfl, rfl, rfl⟩
  · exact ⟨.frintzM o, rfl, rfl, rfl⟩
  · exact ⟨.frintaM o, rfl, rfl, rfl⟩
  · exact absurd rfl h
  · exact ⟨.frintxM o, rfl, rfl, rfl⟩
  · exact ⟨.frintiM o, rfl, rfl, rfl⟩

/-- A word is a merging encoding exactly when it has the fixed bits of format M and an `opc` that is not 101. -/
theorem exists_merging_decode_iff (w : Word) : (∃ i, decode w = .ok i ∧ i.isMerging = true) ↔
    w &&& 0xFF38E000#32 = 0x6500A000#32 ∧ opcOf w ≠ 0b101#3 := by
  rw [exists_decode_and_iff]
  constructor
  · rintro ⟨i, -, hrow, hmerging⟩
    obtain ⟨hformat, hopc⟩ := matchWord_of_isMerging hmerging
    rw [and_eq_matchWord_and hrow (by decide), opcOf_eq_matchWord hrow, hopc]
    exact ⟨hformat, rowSelector_ne i⟩
  · rintro ⟨hformat, hopc⟩
    rw [and_rowMask_eq_opc, hformat]
    exact exists_merging_row hopc _

/-- Settles O3: the format's test and the seven tests of its rows. -/
theorem mergingWordsAreExactlyTheTable : Obligations.MergingWordsAreExactlyTheTable := by
  intro w
  have hclass := fun c m hoperands hmatch => exists_decode_iff (c := c) (m := m) hoperands hmatch w
  refine ⟨exists_merging_decode_iff w, hclass _ _ ?_ ?_, hclass _ _ ?_ ?_, hclass _ _ ?_ ?_, hclass _ _ ?_ ?_,
    hclass _ _ ?_ ?_, hclass _ _ ?_ ?_, hclass _ _ ?_ ?_, fun i h _ => opcOf_eq_matchWord (decode_eq_ok_iff.mp h).1⟩
  all_goals exact fun _ => rfl

/-! ## Format Z (R68) -/

/-- The selector of format Z: `op`, bit 16, followed by `opc2`, bits 14:13. -/
def selectorOf (w : Word) : BitVec 3 := w.extractLsb' 16 1 ++ w.extractLsb' 13 2

/-- The fixed bits of a row are those of format Z and the two fields of the selector. -/
theorem and_rowMask_eq_selector (w : Word) : w &&& rowMask =
    w &&& 0xFF3E8000#32 ||| (w.extractLsb' 16 1).setWidth 32 <<< 16 ||| (w.extractLsb' 13 2).setWidth 32 <<< 13 := by
  rw [field_in_place, field_in_place, ← BitVec.and_or_distrib_left, ← BitVec.and_or_distrib_left]
  rfl

theorem selectorOf_eq_matchWord {w : Word} {i : Instr} (hrow : w &&& rowMask = i.matchWord) :
    selectorOf w = selectorOf i.matchWord := by
  rw [selectorOf, extractLsb'_eq_matchWord hrow (by decide), extractLsb'_eq_matchWord hrow (by decide), selectorOf]

/-- The match value of a zeroing row: the fixed bits of format Z, and the row's selector. -/
theorem matchWord_of_isZeroing {i : Instr} (h : i.isMerging = false) :
    i.matchWord &&& 0xFF3E8000#32 = 0x64188000#32 ∧ selectorOf i.matchWord = rowSelector i := by
  cases i <;> cases h
  all_goals
    simp only [Instr.matchWord, rowSelector]
    decide

/-- Every selector but 101 is the selector of a zeroing row. -/
theorem exists_zeroing_row {op : BitVec 1} {opc2 : BitVec 2} (h : op ++ opc2 ≠ 0b101#3) (o : Operands) :
    ∃ i : Instr, i.operands = o ∧
      0x64188000#32 ||| op.setWidth 32 <<< 16 ||| opc2.setWidth 32 <<< 13 = i.matchWord ∧ i.isMerging = false := by
  have hop : ∀ b : BitVec 1, b = 0b0#1 ∨ b = 0b1#1 := by decide
  have hopc2 : ∀ b : BitVec 2, b = 0b00#2 ∨ b = 0b01#2 ∨ b = 0b10#2 ∨ b = 0b11#2 := by decide
  rcases hop op with rfl | rfl
  · rcases hopc2 opc2 with rfl | rfl | rfl | rfl
    · exact ⟨.frintnZ o, rfl, rfl, rfl⟩
    · exact ⟨.frintpZ o, rfl, rfl, rfl⟩
    · exact ⟨.frintmZ o, rfl, rfl, rfl⟩
    · exact ⟨.frintzZ o, rfl, rfl, rfl⟩
  · rcases hopc2 opc2 with rfl | rfl | rfl | rfl
    · exact ⟨.frintaZ o, rfl, rfl, rfl⟩
    · exact absurd rfl h
    · exact ⟨.frintxZ o, rfl, rfl, rfl⟩
    · exact ⟨.frintiZ o, rfl, rfl, rfl⟩

/-- A word is a zeroing encoding exactly when it has the fixed bits of format Z and a selector that is not 101. -/
theorem exists_zeroing_decode_iff (w : Word) : (∃ i, decode w = .ok i ∧ i.isMerging = false) ↔
    w &&& 0xFF3E8000#32 = 0x64188000#32 ∧ selectorOf w ≠ 0b101#3 := by
  rw [exists_decode_and_iff]
  constructor
  · rintro ⟨i, -, hrow, hzeroing⟩
    obtain ⟨hformat, hselector⟩ := matchWord_of_isZeroing hzeroing
    rw [and_eq_matchWord_and hrow (by decide), selectorOf_eq_matchWord hrow, hselector]
    exact ⟨hformat, rowSelector_ne i⟩
  · rintro ⟨hformat, hselector⟩
    rw [and_rowMask_eq_selector, hformat]
    exact exists_zeroing_row hselector _

/-! ## The rounding option of a selector (R65, R67, R68) -/

/-- The rounding and `exact` of a selector's classes, in either format; none for 101, which no class has (R73). -/
def selectorConstants (selector : BitVec 3) (fpcr : BitVec 64) : Option (FPRounding × Bool) :=
  if selector = 0b000#3 then some (.tieEven, false)
  else if selector = 0b001#3 then some (.posInf, false)
  else if selector = 0b010#3 then some (.negInf, false)
  else if selector = 0b011#3 then some (.zero, false)
  else if selector = 0b100#3 then some (.tieAway, false)
  else if selector = 0b110#3 then some (fpRoundingMode fpcr, true)
  else if selector = 0b111#3 then some (fpRoundingMode fpcr, false)
  else none

theorem selectorConstants_rowSelector (i : Instr) (v : BitVec 64) :
    selectorConstants (rowSelector i) v = some (roundingOf i v, exactOf i) := by
  cases i <;> rfl

/-- Two values of `FPCR` that differ in `RMode` tell the selectors apart. -/
theorem eq_of_selectorConstants_eq {a b : BitVec 3} (h : ∀ v, selectorConstants a v = selectorConstants b v) :
    a = b := by
  have htells : ∀ a b : BitVec 3, selectorConstants a 0 = selectorConstants b 0 →
      selectorConstants a 0x00400000#64 = selectorConstants b 0x00400000#64 → a = b := by decide
  exact htells a b (h 0) (h 0x00400000#64)

/-- Two rows have the same selector exactly when they have the same rounding option. -/
theorem rowSelector_eq_iff (i j : Instr) : rowSelector i = rowSelector j ↔
    ∀ v : BitVec 64, roundingOf i v = roundingOf j v ∧ exactOf i = exactOf j := by
  have hconstants : ∀ v, selectorConstants (rowSelector i) v = selectorConstants (rowSelector j) v ↔
      roundingOf i v = roundingOf j v ∧ exactOf i = exactOf j := fun v => by
    rw [selectorConstants_rowSelector, selectorConstants_rowSelector, Option.some.injEq, Prod.mk.injEq]
  constructor
  · intro h v
    rw [← hconstants, h]
  · intro h
    exact eq_of_selectorConstants_eq fun v => (hconstants v).mpr (h v)

theorem selectorOf_eq_opcOf_iff {i j : Instr} (hi : i.isMerging = false) (hj : j.isMerging = true) :
    selectorOf i.matchWord = opcOf j.matchWord ↔
      ∀ v : BitVec 64, roundingOf i v = roundingOf j v ∧ exactOf i = exactOf j := by
  obtain ⟨-, hselector⟩ := matchWord_of_isZeroing hi
  obtain ⟨-, hopc⟩ := matchWord_of_isMerging hj
  rw [hselector, hopc, rowSelector_eq_iff]

/-- Settles O4: the format's test, the seven tests of its rows, and the rounding options of the selectors. -/
theorem zeroingWordsAreExactlyTheTable : Obligations.ZeroingWordsAreExactlyTheTable := by
  intro w
  have hclass := fun c m hoperands hmatch => exists_decode_iff (c := c) (m := m) hoperands hmatch w
  refine ⟨exists_zeroing_decode_iff w, hclass _ _ ?_ ?_, hclass _ _ ?_ ?_, hclass _ _ ?_ ?_, hclass _ _ ?_ ?_,
    hclass _ _ ?_ ?_, hclass _ _ ?_ ?_, hclass _ _ ?_ ?_,
    fun i h _ => selectorOf_eq_matchWord (decode_eq_ok_iff.mp h).1, fun i j => selectorOf_eq_opcOf_iff⟩
  all_goals exact fun _ => rfl

/-! ## Words outside the tables (R73, R74) -/

/-- A word without the fixed bits of any row does not decode. -/
theorem exists_decode_error {w : Word} (h : ∀ i : Instr, w &&& rowMask ≠ i.matchWord) : ∃ e, decode w = .error e := by
  cases hd : decode w with
  | ok i => exact absurd (decode_eq_ok_iff.mp hd).1 (h i)
  | error e => exact ⟨e, rfl⟩

/-- Settles O6: the fetched bytes form the word, which has no row. -/
theorem wordsOutsideThePatternsAreRefused : Obligations.WordsOutsideThePatternsAreRefused := by
  intro s w hal hw h
  obtain ⟨e, hd⟩ := exists_decode_error h
  have hbytes : decodeBytes (bytesOfWord w) = .error e := by
    rw [decodeBytes_bytesOfWord, hd]
    rfl
  exact ⟨_, step_of_decodeBytes_error (fetch_of_wordAt hal hw) hbytes⟩

end Sys2Proof.Proofs
end

section
/-! PROOFS of the family 30_encoding: when an instruction is undefined (O12, O11). -/

namespace Sys2Proof.Proofs

open Sys2Proof.Machine Sys2Proof.Safety

theorem sizeFmt_eq_none_iff (z : Size) : sizeFmt z = none ↔ z = .size00 := by
  cases z <;> simp [sizeFmt]

/-- The features of a class are absent when both of its form's two features are (R71). -/
theorem featureOf_eq_false_iff (i : Instr) (s : State) : featureOf i s = false ↔
    (i.isMerging = true ∧ s.cfg.haveSVE = false ∧ s.cfg.haveSME = false) ∨
      (i.isMerging = false ∧ s.cfg.haveSVE2p2 = false ∧ s.cfg.haveSME2p2 = false) := by
  cases h : i.isMerging with
  | true => simp [featureOf, h, State.mergingFeature]
  | false => simp [featureOf, h, State.zeroingFeature]

/-- Without the features or the size the shared meaning takes Undefined Instruction (R70, R71). -/
theorem frint_undefined {F : FPRoundIntFn} {feature : Bool} {rounding : FPRounding} {exact merging : Bool} {w : Word}
    {o : Operands} {s : State} (h : feature = false ∨ sizeFmt o.size = none) :
    frint F feature rounding exact merging w o s = .fault (.undefinedInstruction s.pc w) := by
  cases feature with
  | false => rfl
  | true =>
    have hsize := h.resolve_left Bool.noConfusion
    simp [frint, hsize, takeException]

/-- Undefined Instruction is the outcome exactly without the features or the size, and records the instruction. -/
theorem exec_undefined_iff (i : Instr) (s : State) (pc : Addr) (w : Word) :
    exec i s = .fault (.undefinedInstruction pc w) ↔
      (featureOf i s = false ∨ i.operands.size = .size00) ∧ pc = s.pc ∧ w = encode i := by
  rw [exec_eq_frint_constants, ← sizeFmt_eq_none_iff]
  constructor
  · intro h
    rcases frint_fault h with ⟨hcause, hx⟩ | ⟨kind, -, hx⟩ | ⟨f, -, -, hx⟩
    · cases hx
      exact ⟨hcause, rfl, rfl⟩
    · cases hx
    · cases hx
  · rintro ⟨hcause, rfl, rfl⟩
    exact frint_undefined hcause

/-- Settles O12, by the two causes of an undefined instruction. -/
theorem undefinedExactlyWhenFeaturesOrSizeSay : Obligations.UndefinedExactlyWhenFeaturesOrSizeSay := by
  intro i s
  refine ⟨?_, fun pc w h => ((exec_undefined_iff i s pc w).mp h).2⟩
  rw [exec_undefined_iff, featureOf_eq_false_iff, or_assoc, and_iff_left ⟨rfl, rfl⟩]

/-- Settles O11: size 00 is one of the two causes, whatever the features. -/
theorem sizeZeroIsUndefinedInEveryClass : Obligations.SizeZeroIsUndefinedInEveryClass := fun i s h =>
  (exec_undefined_iff i s _ _).mpr ⟨.inr h, rfl, rfl⟩

end Sys2Proof.Proofs
end

section
/-! PROOFS of the family 30_encoding: the shared operation and its closed form (O18, O19). What an element of the loop's
result is, and when no enabled exception is signalled (40_frint_operation.md R86, R89, R105). -/

namespace Sys2Proof.Proofs

open Sys2Proof.Machine Sys2Proof.Safety

/-! ## Elements (R11) -/

/-- A written element reads back as what was written. -/
theorem element_setElement_same {n e : Nat} (f : Fmt) (x : BitVec n) (v : BitVec f.bits) (h : (e + 1) * f.bits ≤ n) :
    element f (setElement f x e v) e = v := by
  have hend : (e + 1) * f.bits = e * f.bits + f.bits := Nat.succ_mul e f.bits
  refine BitVec.eq_of_getLsbD_eq fun i hi => ?_
  rw [getLsbD_element, getLsbD_setElement f x e v _ (by omega), if_pos (by omega), Nat.add_sub_cancel_left]
  simp [hi]

/-- The other elements are left alone. -/
theorem element_setElement_other {n e e' : Nat} (f : Fmt) (x : BitVec n) (v : BitVec f.bits) (hne : e ≠ e')
    (h : (e + 1) * f.bits ≤ n) : element f (setElement f x e' v) e = element f x e := by
  have hend : (e + 1) * f.bits = e * f.bits + f.bits := Nat.succ_mul e f.bits
  have hapart : (e + 1) * f.bits ≤ e' * f.bits ∨ (e' + 1) * f.bits ≤ e * f.bits :=
    (Nat.lt_or_gt_of_ne hne).imp (Nat.mul_le_mul_right f.bits) (Nat.mul_le_mul_right f.bits)
  refine BitVec.eq_of_getLsbD_eq fun i hi => ?_
  rw [getLsbD_element, getLsbD_element, getLsbD_setElement f x e' v _ (by omega), if_neg (by omega)]

/-! ## The round loop (R86) -/

/-- An element of the loop's result is its rounded value if the loop has passed it and it is active, and the initial one
otherwise. -/
theorem element_roundLoop {n k e : Nat} (F : FPRoundIntFn) (f : Fmt) (fpcr : BitVec 64) (rounding : FPRounding)
    (exact : Bool) (mask : BitVec k) (operand init : BitVec n) (count : Nat) (h : (e + 1) * f.bits ≤ n) :
    element f (roundLoop F f fpcr rounding exact mask operand init count) e =
      if e < count ∧ activeElement mask e f = true then F.value f (element f operand e) fpcr rounding exact
      else element f init e := by
  induction count with
  | zero => simp [roundLoop]
  | succ c ih =>
    cases ha : activeElement mask c f with
    | false =>
      have hpassed : (e < c + 1 ∧ activeElement mask e f = true) ↔ (e < c ∧ activeElement mask e f = true) := by
        refine and_congr_left fun hact => ?_
        have : e ≠ c := by
          rintro rfl
          simp [ha] at hact
        omega
      simp only [roundLoop_succ_inactive ha, ih, hpassed]
    | true =>
      rw [roundLoop_succ_active ha]
      by_cases hec : e = c
      · subst hec
        rw [element_setElement_same f _ _ h, if_pos ⟨Nat.lt_succ_self e, ha⟩]
      · have hpassed : e < c + 1 ↔ e < c := by omega
        simp only [element_setElement_other f _ _ hec h, ih, hpassed]

/-- What the operation leaves is the closed form (R89). -/
theorem closedForm_frintResult (F : FPRoundIntFn) (f : Fmt) (rounding : FPRounding) (exact merging : Bool)
    (o : Operands) (s : State) : ClosedForm F f rounding exact merging o s (frintResult F f rounding exact merging o s)
      (frintFlags F f rounding exact o s) where
  active := fun e hact => by
    rw [frintResult, element_roundLoop F f _ _ _ _ _ _ _ (element_inside f hact.1), frintOperand_of_active hact]
    exact if_pos hact
  inactive := fun e he hinactive => by
    rw [frintResult, element_roundLoop F f _ _ _ _ _ _ _ (element_inside f he)]
    refine (if_neg hinactive).trans ?_
    cases merging with
    | true => rfl
    | false => simp [frintInit, element]
  invalidOp := frintFlags_member_iff isMember_invalidOp F f rounding exact o s
  inexact := frintFlags_member_iff isMember_inexact F f rounding exact o s
  inputDenorm := frintFlags_member_iff isMember_inputDenorm F f rounding exact o s

/-! ## Enabled exceptions (R102, R129) -/

theorem isEmpty_eq_true_iff (a : FPExcSet) : a.isEmpty = true ↔ a = .none := by
  obtain ⟨x, y, z⟩ := a
  revert x y z
  decide

/-- Two sets have no exception in common exactly when each exception of the first is missing from the second. -/
theorem inter_eq_none_iff (a b : FPExcSet) : a.inter b = .none ↔ (a.invalidOp = true → b.invalidOp = false) ∧
    (a.inexact = true → b.inexact = false) ∧ (a.inputDenorm = true → b.inputDenorm = false) := by
  simp [FPExcSet.inter, FPExcSet.none]

/-- No trap is taken exactly when no active element signals an enabled exception. -/
theorem frintTraps_isEmpty_iff (F : FPRoundIntFn) (f : Fmt) (rounding : FPRounding) (exact : Bool) (o : Operands)
    (s : State) : (frintTraps F f rounding exact o s).isEmpty = true ↔ NoTrap F f rounding exact o s := by
  rw [isEmpty_eq_true_iff, frintTraps, inter_eq_none_iff, frintFlags_member_iff isMember_invalidOp,
    frintFlags_member_iff isMember_inexact, frintFlags_member_iff isMember_inputDenorm]
  simp only [NoTrap, inter_eq_none_iff, SomeActive, forall_exists_index, and_imp, imp_and, forall_and]

/-- Where no enabled exception is signalled the operation completes by the write-back of its result and flags. -/
theorem frintOperation_of_noTrap {F : FPRoundIntFn} {f : Fmt} {rounding : FPRounding} {exact : Bool} {o : Operands}
    {s : State} (h : NoTrap F f rounding exact o s) (merging : Bool) (w : Word) :
    frintOperation F f rounding exact merging w o s =
      .next (frintWriteBack o.zd s (frintResult F f rounding exact merging o s) (frintFlags F f rounding exact o s)) :=
  if_pos ((frintTraps_isEmpty_iff F f rounding exact o s).mpr h)

/-! ## The 14 instructions (R110 to R123) -/

/-- Instructions that are the shared meaning at some constants complete by the closed form at these constants. -/
theorem completesByClosedForm_of_exec {c : Operands → Instr} {feature : State → Bool}
    {rounding : BitVec 64 → FPRounding} {exact merging : Bool}
    (h : ∀ o s, exec (c o) s =
      frint fpRoundInt (feature s) (rounding s.fpcrValue) exact merging (encode (c o)) o s) :
    CompletesByClosedForm c feature rounding exact merging := by
  intro o s f hfeature hsize hcheck hnotrap
  refine ⟨_, _, ?_, closedForm_frintResult fpRoundInt f (rounding s.fpcrValue) exact merging o s⟩
  rw [h, frint_runs hfeature hsize hcheck, frintOperation_of_noTrap hnotrap, frintWriteBack]

/-- Settles O18: each merging instruction is the shared meaning at its constants. -/
theorem mergingFormsCompleteWithTheClosedForm : Obligations.MergingFormsCompleteWithTheClosedForm := by
  refine ⟨?_, ?_, ?_, ?_, ?_, ?_, ?_⟩
  all_goals exact completesByClosedForm_of_exec fun o s => exec_eq_frint_constants _ s

/-- Settles O19: each zeroing instruction is the shared meaning at its constants. -/
theorem zeroingFormsCompleteWithTheClosedForm : Obligations.ZeroingFormsCompleteWithTheClosedForm := by
  refine ⟨?_, ?_, ?_, ?_, ?_, ?_, ?_⟩
  all_goals exact completesByClosedForm_of_exec fun o s => exec_eq_frint_constants _ s

end Sys2Proof.Proofs
end

section
/-! PROOFS of the family 40_frint_operation: the loops depend on the active elements only (O20, O30). -/

namespace Sys2Proof.Proofs

open Sys2Proof.Machine Sys2Proof.Safety

section Loops

variable {n k k' count : Nat} {F : FPRoundIntFn} {f : Fmt} {fpcr fpcr' : BitVec 64} {rounding : FPRounding}
  {exact exact' : Bool} {mask : BitVec k} {mask' : BitVec k'} {operand operand' init : BitVec n}

/-- Two runs of the round loop agree when the same elements are active and these round to the same values (R86). -/
theorem roundLoop_congr (hmask : ∀ e < count, activeElement mask e f = activeElement mask' e f)
    (hvalue : ∀ e < count, activeElement mask e f = true → F.value f (element f operand e) fpcr rounding exact =
      F.value f (element f operand' e) fpcr' rounding exact') :
    roundLoop F f fpcr rounding exact mask operand init count =
      roundLoop F f fpcr' rounding exact' mask' operand' init count := by
  induction count with
  | zero => rfl
  | succ c ih =>
    have hrest := ih (fun e he => hmask e (by omega)) (fun e he => hvalue e (by omega))
    have hc := hmask c (Nat.lt_succ_self c)
    cases ha : activeElement mask c f with
    | false => rw [roundLoop_succ_inactive ha, roundLoop_succ_inactive (hc ▸ ha), hrest]
    | true =>
      rw [roundLoop_succ_active ha, roundLoop_succ_active (hc ▸ ha), hrest, hvalue c (Nat.lt_succ_self c) ha]

/-- Two runs of the flag loop agree when the same elements are active and these signal the same exceptions (R105). -/
theorem flagLoop_congr (hmask : ∀ e < count, activeElement mask e f = activeElement mask' e f)
    (hflags : ∀ e < count, activeElement mask e f = true → F.flags f (element f operand e) fpcr rounding exact =
      F.flags f (element f operand' e) fpcr' rounding exact) :
    flagLoop F f fpcr rounding exact mask operand count = flagLoop F f fpcr' rounding exact mask' operand' count := by
  induction count with
  | zero => rfl
  | succ c ih =>
    have hrest := ih (fun e he => hmask e (by omega)) (fun e he => hflags e (by omega))
    have hc := hmask c (Nat.lt_succ_self c)
    cases ha : activeElement mask c f with
    | false => rw [flagLoop_succ_inactive ha, flagLoop_succ_inactive (hc ▸ ha), hrest]
    | true => rw [flagLoop_succ_active ha, flagLoop_succ_active (hc ▸ ha), hrest, hflags c (Nat.lt_succ_self c) ha]

end Loops

section Read

variable (F : FPRoundIntFn) (f : Fmt) (rounding : FPRounding) (exact merging : Bool) (o : Operands) (s : State)

/-- The result is that of the loop over `Z[n]` read whether or not an element is active (R85). -/
theorem frintResult_eq_roundLoop : frintResult F f rounding exact merging o s =
    roundLoop F f s.fpcrValue rounding exact (s.readP o.pg) (s.readZ o.zn) (frintInit merging o s)
      (elementCount s.cfg.vl f) :=
  roundLoop_congr (fun _ _ => rfl) fun _ he hact => by rw [frintOperand_of_active ⟨he, hact⟩]

/-- The exceptions are those of the loop over `Z[n]` read whether or not an element is active (R85). -/
theorem frintFlags_eq_flagLoop : frintFlags F f rounding exact o s =
    flagLoop F f s.fpcrValue rounding exact (s.readP o.pg) (s.readZ o.zn) (elementCount s.cfg.vl f) :=
  flagLoop_congr (fun _ _ => rfl) fun _ he hact => by rw [frintOperand_of_active ⟨he, hact⟩]

end Read

/-- Settles O30: the two loops see `Z[n]` at an active element only, and there the conditional read has it. -/
theorem conditionalSourceReadIsNotObservable : Obligations.ConditionalSourceReadIsNotObservable :=
  ⟨fun _ _ mask f => anyActiveBelow_iff mask f _, fun F f rounding exact merging o s =>
    ⟨frintResult_eq_roundLoop F f rounding exact merging o s, frintFlags_eq_flagLoop F f rounding exact o s⟩⟩

/-- Settles O20, by the two outcomes of the operation: it completes exactly without a trap, and by the closed form. -/
theorem loopIsTheClosedFormForAnyFPRoundInt : Obligations.LoopIsTheClosedFormForAnyFPRoundInt := by
  intro F f rounding exact merging w o s
  refine ⟨⟨fun h => ⟨_, frintOperation_of_noTrap h merging w⟩, ?_⟩, fun h =>
    ⟨_, _, frintOperation_of_noTrap h merging w, closedForm_frintResult F f rounding exact merging o s⟩⟩
  rintro ⟨t, ht⟩
  rcases frintOperation_cases F f rounding exact merging w o s with ⟨htraps, -⟩ | ⟨-, hfault⟩
  · exact (frintTraps_isEmpty_iff F f rounding exact o s).mp htraps
  · cases hfault.symm.trans ht

end Sys2Proof.Proofs
end

section
/-! PROOFS of the family 40_frint_operation: the fields of `FPCR` that the scalar function reads (O43, R104 (f)). -/

namespace Sys2Proof.Proofs

open Sys2Proof.Machine Sys2Proof.Safety

/-- Two words that agree under a mask have the same bit wherever the mask has one. -/
theorem getLsbD_eq_of_and_eq {w j : Nat} {u v mask : BitVec w} (h : u &&& mask = v &&& mask)
    (hj : mask.getLsbD j = true) : u.getLsbD j = v.getLsbD j := by
  have := congrArg (BitVec.getLsbD · j) h
  simpa [hj] using this

section FiveFields

variable {u v : BitVec 64} (h : u &&& 0x03080003#64 = v &&& 0x03080003#64)
include h

theorem fpcrAH_congr : fpcrAH u = fpcrAH v := getLsbD_eq_of_and_eq h rfl

theorem fpFlushFZ_congr : fpFlushFZ u = fpFlushFZ v := by
  rw [fpFlushFZ, fpFlushFZ, fpcrAH_congr h, fpcrFZ, fpcrFZ, getLsbD_eq_of_and_eq h rfl]

theorem fpFlushes_congr (f : Fmt) : fpFlushes f u = fpFlushes f v := by
  have hFIZ : fpcrFIZ u = fpcrFIZ v := getLsbD_eq_of_and_eq h rfl
  cases f with
  | half => exact getLsbD_eq_of_and_eq h rfl
  | single => simp only [fpFlushes, fpFlushFZ_congr h, hFIZ]
  | double => simp only [fpFlushes, fpFlushFZ_congr h, hFIZ]

theorem fpFlushSignals_congr (f : Fmt) : fpFlushSignals f u = fpFlushSignals f v := by
  cases f with
  | half => rfl
  | single => exact fpFlushFZ_congr h
  | double => exact fpFlushFZ_congr h

theorem fpClassify_congr (f : Fmt) (op : BitVec f.bits) : fpClassify f op u = fpClassify f op v := by
  rw [fpClassify, fpClassify, fpFlushes_congr h]

theorem fpProcessNaN_congr (f : Fmt) (op : BitVec f.bits) : fpProcessNaN f op u = fpProcessNaN f op v := by
  have hDN : fpcrDN u = fpcrDN v := getLsbD_eq_of_and_eq h rfl
  rw [fpProcessNaN, fpProcessNaN, hDN, fpDefaultNaN, fpDefaultNaN, fpcrAH_congr h]

theorem fpRoundIntValue_congr (f : Fmt) (op : BitVec f.bits) (rounding : FPRounding) (exact : Bool) :
    fpRoundIntValue f op u rounding exact = fpRoundIntValue f op v rounding exact := by
  rw [fpRoundIntValue, fpRoundIntValue, fpClassify_congr h, fpProcessNaN_congr h]

theorem fpRoundIntFlags_congr (f : Fmt) (op : BitVec f.bits) (rounding : FPRounding) (exact : Bool) :
    fpRoundIntFlags f op u rounding exact = fpRoundIntFlags f op v rounding exact := by
  rw [fpRoundIntFlags, fpRoundIntFlags, fpClassify_congr h, fpFlushSignals_congr h]

end FiveFields

/-- Settles O43: classification, flushing and NaN processing each read some of the five fields. -/
theorem scalarUsesFiveFieldsOfFpcr : Obligations.ScalarUsesFiveFieldsOfFpcr := fun f op _ _ rounding exact h =>
  ⟨fpRoundIntValue_congr h f op rounding exact, fpRoundIntFlags_congr h f op rounding exact⟩

end Sys2Proof.Proofs
end

section
/-! PROOFS of the family 40_frint_operation: an instruction's outcome depends only on what the operation reads (O25,
O26, O27), and option X is option I plus Inexact (O31). -/

namespace Sys2Proof.Proofs

open Sys2Proof.Machine Sys2Proof.Safety

/-- The state with other registers that an instruction can read: vectors, predicates, `FPCR`. -/
abbrev withReads (s : State) (z : Vector (BitVec s.cfg.vl) 32) (p : Vector (BitVec (s.cfg.vl / 8)) 16) (c : BitVec 64) :
    State :=
  { s with z := z, p := p, fpcr := c }

/-- What the instruction reads of the other registers is what it reads of its own: the rounding, the fields of `FPCR`
that the scalar function uses, the trap enables, which elements are active, the active elements of the source, and the
old destination. -/
structure SameReads (i : Instr) (s : State) (z : Vector (BitVec s.cfg.vl) 32) (p : Vector (BitVec (s.cfg.vl / 8)) 16)
    (c : BitVec 64) : Prop where
  rounding : roundingOf i (withReads s z p c).fpcrValue = roundingOf i s.fpcrValue
  scalar : (withReads s z p c).fpcrValue &&& 0x03080003#64 = s.fpcrValue &&& 0x03080003#64
  traps : enabledTraps (withReads s z p c).fpcrValue = enabledTraps s.fpcrValue
  active : ∀ f e, sizeFmt i.operands.size = some f → e < elementCount s.cfg.vl f →
    activeElement ((withReads s z p c).readP i.operands.pg) e f = activeElement (s.readP i.operands.pg) e f
  source : ∀ f e, sizeFmt i.operands.size = some f → Active f i.operands s e →
    element f ((withReads s z p c).readZ i.operands.zn) e = element f (s.readZ i.operands.zn) e
  destination : (withReads s z p c).readZ i.operands.zd = s.readZ i.operands.zd

section SameReads

variable {i : Instr} {s : State} {z : Vector (BitVec s.cfg.vl) 32} {p : Vector (BitVec (s.cfg.vl / 8)) 16}
  {c : BitVec 64} {f : Fmt} (h : SameReads i s z p c) (hsize : sizeFmt i.operands.size = some f)
  (rounding : FPRounding) (exact : Bool)
include h hsize

theorem frintFlags_withReads : frintFlags fpRoundInt f rounding exact i.operands (withReads s z p c) =
    frintFlags fpRoundInt f rounding exact i.operands s := by
  rw [frintFlags_eq_flagLoop, frintFlags_eq_flagLoop]
  refine flagLoop_congr (fun e he => h.active f e hsize he) fun e he hact => ?_
  rw [h.source f e hsize ⟨he, (h.active f e hsize he).symm.trans hact⟩]
  exact fpRoundIntFlags_congr h.scalar f _ rounding exact

theorem frintTraps_withReads : frintTraps fpRoundInt f rounding exact i.operands (withReads s z p c) =
    frintTraps fpRoundInt f rounding exact i.operands s := by
  rw [frintTraps, frintTraps, frintFlags_withReads h hsize, h.traps]

theorem frintResult_withReads (merging : Bool) :
    frintResult fpRoundInt f rounding exact merging i.operands (withReads s z p c) =
      frintResult fpRoundInt f rounding exact merging i.operands s := by
  have hinit : frintInit merging i.operands (withReads s z p c) = frintInit merging i.operands s :=
    congrArg (fun x => if merging then x else 0) h.destination
  rw [frintResult_eq_roundLoop, frintResult_eq_roundLoop, hinit]
  refine roundLoop_congr (fun e he => h.active f e hsize he) fun e he hact => ?_
  rw [h.source f e hsize ⟨he, (h.active f e hsize he).symm.trans hact⟩]
  exact fpRoundIntValue_congr h.scalar f _ rounding exact

end SameReads

/-- With the features and a size that exists the access check comes next (R81, R132). -/
theorem frint_accessTrap {F : FPRoundIntFn} {feature : Bool} {rounding : FPRounding} {exact merging : Bool} {w : Word}
    {o : Operands} {s : State} {f : Fmt} {kind : TrapKind} (hf : feature = true) (hs : sizeFmt o.size = some f)
    (hc : s.cfg.sveCheck = .trap kind) :
    frint F feature rounding exact merging w o s = .fault (.sveAccessTrap kind s.pc w) := by
  simp [frint, hf, hs, hc, takeException]

/-- With the same reads an instruction writes the same vector and the same flags back, or takes the same fault. -/
theorem exec_withReads {i : Instr} {s : State} {z : Vector (BitVec s.cfg.vl) 32} {p : Vector (BitVec (s.cfg.vl / 8)) 16}
    {c : BitVec 64} (h : SameReads i s z p c) :
    (∃ (v : BitVec s.cfg.vl) (a : FPExcSet), exec i s = .next (frintWriteBack i.operands.zd s v a) ∧
      exec i (withReads s z p c) = .next (frintWriteBack i.operands.zd (withReads s z p c) v a)) ∨
    ∃ x, exec i s = .fault x ∧ exec i (withReads s z p c) = .fault x := by
  have hfeature : featureOf i (withReads s z p c) = featureOf i s := rfl
  rw [exec_eq_frint_constants, exec_eq_frint_constants, h.rounding, hfeature]
  by_cases hundef : featureOf i s = false ∨ sizeFmt i.operands.size = none
  · exact .inr ⟨_, frint_undefined hundef, frint_undefined hundef⟩
  obtain ⟨hf, hs⟩ := not_or.mp hundef
  rw [Bool.not_eq_false] at hf
  obtain ⟨f, hsize⟩ := Option.ne_none_iff_exists'.mp hs
  cases hcheck : s.cfg.sveCheck with
  | trap kind =>
    exact .inr ⟨_, frint_accessTrap hf hsize hcheck, frint_accessTrap (s := withReads s z p c) hf hsize hcheck⟩
  | ok =>
    have hruns := fun rounding exact merging w => frint_runs (F := fpRoundInt) (rounding := rounding) (exact := exact)
      (merging := merging) (w := w) (s := withReads s z p c) hf hsize hcheck
    rcases frintOperation_cases fpRoundInt f (roundingOf i s.fpcrValue) (exactOf i) i.isMerging (encode i) i.operands s
      with ⟨htraps, hop⟩ | ⟨htraps, hop⟩
    · refine .inl ⟨_, _, (frint_runs hf hsize hcheck).trans hop, (hruns _ _ _ _).trans ?_⟩
      rw [frintOperation, frintTraps_withReads h hsize, if_pos htraps, frintFlags_withReads h hsize,
        frintResult_withReads h hsize]
    · refine .inr ⟨_, (frint_runs hf hsize hcheck).trans hop, (hruns _ _ _ _).trans ?_⟩
      rw [frintOperation, frintTraps_withReads h hsize, if_neg (Bool.eq_false_iff.mp htraps)]
      rfl

/-- The same in the words of the statements: every next state of the one is the write-back that the other makes too, and
every fault of the one is a fault of the other. -/
theorem exec_withReads_outcomes {i : Instr} {s : State} {z : Vector (BitVec s.cfg.vl) 32}
    {p : Vector (BitVec (s.cfg.vl / 8)) 16} {c : BitVec 64} (h : SameReads i s z p c) :
    (∀ t, exec i s = .next t → ∃ (v : BitVec s.cfg.vl) (a : FPExcSet), t = frintWriteBack i.operands.zd s v a ∧
      exec i (withReads s z p c) = .next (frintWriteBack i.operands.zd (withReads s z p c) v a)) ∧
    ∀ x, exec i s = .fault x → exec i (withReads s z p c) = .fault x := by
  rcases exec_withReads h with ⟨v, a, hs, hs'⟩ | ⟨x, hs, hs'⟩
  · refine ⟨fun t ht => ⟨v, a, ?_, hs'⟩, fun x hx => ?_⟩
    · cases hs.symm.trans ht
      rfl
    · cases hs.symm.trans hx
  · refine ⟨fun t ht => ?_, fun y hy => ?_⟩
    · cases hs.symm.trans ht
    · cases hs.symm.trans hy
      exact hs'

/-! ## The three statements -/

/-- The reads of another value of `FPCR` that differs in `RMode` only are the same for a fixed rounding (R106). -/
theorem sameReads_of_rmode {i : Instr} {s : State} {v : BitVec 64} (hi : fixedRounding i)
    (hv : v &&& ~~~0x00C00000#64 = s.fpcr &&& ~~~0x00C00000#64) : SameReads i s s.z s.p v := by
  have hread : (withReads s s.z s.p v).fpcrValue &&& ~~~0x00C00000#64 = s.fpcrValue &&& ~~~0x00C00000#64 := by
    rw [State.fpcrValue, State.fpcrValue, BitVec.and_assoc, BitVec.and_assoc, BitVec.and_comm (fpcrLiveBits _),
      ← BitVec.and_assoc, ← BitVec.and_assoc, hv]
  have hfields : 0x03080003#64 = ~~~0x00C00000#64 &&& 0x03080003#64 := by decide
  refine ⟨hi _ _, ?_, ?_, fun _ _ _ _ => rfl, fun _ _ _ _ => rfl, rfl⟩
  · rw [hfields, ← BitVec.and_assoc, hread, BitVec.and_assoc]
  · simp only [enabledTraps, fpcrIOE, fpcrIXE, fpcrIDE, FPExcSet.mk.injEq]
    exact ⟨getLsbD_eq_of_and_eq hread rfl, getLsbD_eq_of_and_eq hread rfl, getLsbD_eq_of_and_eq hread rfl⟩

/-- Settles O25: a fixed rounding reads none of the two bits. -/
theorem fixedRoundingIgnoresRMode : Obligations.FixedRoundingIgnoresRMode := by
  intro i s v hi hv
  obtain ⟨hnext, hfault⟩ := exec_withReads_outcomes (sameReads_of_rmode hi hv)
  refine ⟨fun t ht => ?_, hfault⟩
  obtain ⟨x, a, rfl, hs'⟩ := hnext t ht
  exact hs'

/-- A mask that agrees on the lowest bits of the elements makes the same elements active (R84). -/
theorem sameReads_of_mask {i : Instr} {s : State} {m : BitVec (s.cfg.vl / 8)}
    (hm : ∀ f e, sizeFmt i.operands.size = some f → e < elementCount s.cfg.vl f →
      m.getLsbD (e * (f.bits / 8)) = (s.readP i.operands.pg).getLsbD (e * (f.bits / 8))) :
    SameReads i s s.z (s.p.set (governing i.operands.pg).val m (governing i.operands.pg).isLt) s.fpcr := by
  refine ⟨rfl, rfl, rfl, fun f e hsize he => ?_, fun _ _ _ _ => rfl, rfl⟩
  have hread : (s.p.set (governing i.operands.pg).val m (governing i.operands.pg).isLt).get (governing i.operands.pg) =
      m := by
    simp [Vector.get_eq_getElem]
  exact (congrArg (activeElement · e f) hread).trans (hm f e hsize he)

/-- Settles O26: `ActivePredicateElement` is the one reader of the predicate. -/
theorem predicateIsReadAtLowestBitsOnly : Obligations.PredicateIsReadAtLowestBitsOnly :=
  ⟨fun _ _ _ _ => rfl, fun _ _ _ hm => exec_withReads_outcomes (sameReads_of_mask hm)⟩

/-- A source that agrees on the active elements is read the same, and the destination is another register (R86). -/
theorem sameReads_of_source {i : Instr} {s : State} {x : BitVec s.cfg.vl} (hne : i.operands.zn ≠ i.operands.zd)
    (hx : ∀ f e, sizeFmt i.operands.size = some f → Active f i.operands s e →
      element f x e = element f (s.readZ i.operands.zn) e) :
    SameReads i s (s.z.set i.operands.zn.val x i.operands.zn.isLt) s.p s.fpcr := by
  refine ⟨rfl, rfl, rfl, fun _ _ _ _ => rfl, fun f e hsize hact => ?_, ?_⟩
  · exact (congrArg (element f · e) (State.readZ_writeZ_same s i.operands.zn x)).trans (hx f e hsize hact)
  · exact State.readZ_writeZ_other s i.operands.zn i.operands.zd x hne.symm

/-- Settles O27: the loops read the source at active elements only. -/
theorem inactiveSourceElementsHaveNoInfluence : Obligations.InactiveSourceElementsHaveNoInfluence :=
  fun _ _ _ hne hx => exec_withReads_outcomes (sameReads_of_source hne hx)

/-! ## Options X and I (R98) -/

/-- `exact` takes part in the signal Inexact alone, and without it Inexact is not signalled. -/
theorem frintFlags_exact (f : Fmt) (rounding : FPRounding) (o : Operands) (s : State) :
    (frintFlags fpRoundInt f rounding true o s).invalidOp = (frintFlags fpRoundInt f rounding false o s).invalidOp ∧
    (frintFlags fpRoundInt f rounding true o s).inputDenorm = (frintFlags fpRoundInt f rounding false o s).inputDenorm ∧
    (frintFlags fpRoundInt f rounding false o s).inexact = false := by
  refine ⟨?_, ?_, ?_⟩
  · rw [Bool.eq_iff_iff, frintFlags_member_iff isMember_invalidOp, frintFlags_member_iff isMember_invalidOp]
    exact someActive_congr fun x => (fpRoundIntFlags_invalidOp_iff f x s.fpcrValue rounding true).trans
      (fpRoundIntFlags_invalidOp_iff f x s.fpcrValue rounding false).symm
  · rw [Bool.eq_iff_iff, frintFlags_member_iff isMember_inputDenorm, frintFlags_member_iff isMember_inputDenorm]
    exact someActive_congr fun x => (fpRoundIntFlags_inputDenorm_iff f x s.fpcrValue rounding true).trans
      (fpRoundIntFlags_inputDenorm_iff f x s.fpcrValue rounding false).symm
  · rw [← Bool.not_eq_true, frintFlags_member_iff isMember_inexact]
    rintro ⟨e, -, hsignal⟩
    cases ((fpRoundIntFlags_inexact_iff f _ _ rounding false).mp hsignal).1

/-- `exact` takes no part in the value. -/
theorem frintResult_exact (f : Fmt) (rounding : FPRounding) (exact exact' merging : Bool) (o : Operands) (s : State) :
    frintResult fpRoundInt f rounding exact merging o s = frintResult fpRoundInt f rounding exact' merging o s :=
  roundLoop_congr (fun _ _ => rfl) fun _ _ _ => rfl

/-- Two sets that differ in Inexact only accumulate to words that differ in `IXC` only (R33). -/
theorem fpsrAccumulate_or_inexact {a b : FPExcSet} (hinvalid : a.invalidOp = b.invalidOp)
    (hdenorm : a.inputDenorm = b.inputDenorm) (v : BitVec 64) :
    fpsrAccumulate v a ||| 0x10#64 = fpsrAccumulate v b ||| 0x10#64 := by
  have hbits : ∀ a b : FPExcSet, a.invalidOp = b.invalidOp → a.inputDenorm = b.inputDenorm →
      a.fpsrBits ||| 0x10#64 = b.fpsrBits ||| 0x10#64 := by
    rintro ⟨x, y, z⟩ ⟨x', y', z'⟩ rfl rfl
    revert x y z y'
    decide
  rw [fpsrAccumulate, fpsrAccumulate, BitVec.or_assoc, hbits a b hinvalid hdenorm, BitVec.or_assoc]

/-- Two instructions of the same rounding, form and operands, one with `exact` and one without, leave the same state but
for `IXC` where both complete, and the one without leaves `IXC` alone. -/
theorem exact_is_plus_inexact {i j : Instr} {s t u : State} (hi : exactOf i = true) (hj : exactOf j = false)
    (hrounding : ∀ v, roundingOf i v = roundingOf j v) (hform : i.isMerging = j.isMerging)
    (hoperands : i.operands = j.operands) (ht : exec i s = .next t) (hu : exec j s = .next u) :
    t = { u with fpsr := t.fpsr } ∧ t.fpsr ||| 0x10#64 = u.fpsr ||| 0x10#64 ∧ u.fpsr.getLsbD 4 = s.fpsr.getLsbD 4 := by
  obtain ⟨f, -, hsize, -, -, rfl⟩ := exec_next ht
  obtain ⟨f', -, hsize', -, -, rfl⟩ := exec_next hu
  obtain rfl : f' = f := Option.some.inj (hsize'.symm.trans (hoperands ▸ hsize))
  rw [hi, hj, hrounding, hform, hoperands, frintResult_exact f' _ true false]
  obtain ⟨hinvalid, hdenorm, hinexact⟩ := frintFlags_exact f' (roundingOf j s.fpcrValue) j.operands s
  refine ⟨rfl, fpsrAccumulate_or_inexact hinvalid hdenorm s.fpsr, ?_⟩
  rw [frintWriteBack_fpsr, (getLsbD_fpsrAccumulate _ _).2.1, hinexact, Bool.or_false]

/-- Settles O31: the two options have the same constants but for `exact`, in both forms. -/
theorem optionXIsOptionIPlusInexact : Obligations.OptionXIsOptionIPlusInexact := by
  rintro o s t u (⟨ht, hu⟩ | ⟨ht, hu⟩)
  · exact exact_is_plus_inexact (i := .frintxM o) (j := .frintiM o) rfl rfl (fun _ => rfl) rfl rfl ht hu
  · exact exact_is_plus_inexact (i := .frintxZ o) (j := .frintiZ o) rfl rfl (fun _ => rfl) rfl rfl ht hu

end Sys2Proof.Proofs
end

section
/-! PROOFS of the family 40_frint_operation: the fields of a datum, and the datum of given fields (R91). -/

namespace Sys2Proof.Proofs

open Sys2Proof.Machine Sys2Proof.Safety

/-! ## Formats (R91) -/

theorem bits_eq (f : Fmt) : f.bits = f.fracBits + f.expBits + 1 := by cases f <;> rfl

theorem bits_sub_one (f : Fmt) : f.bits - 1 = f.fracBits + f.expBits := by rw [bits_eq]; rfl

theorem expMax_eq (f : Fmt) : f.expMax = 2 * f.bias + 1 := by cases f <;> rfl

theorem two_pow_expBits (f : Fmt) : 2 ^ f.expBits = 2 * f.bias + 2 := by cases f <;> rfl

theorem fracBits_le_bias (f : Fmt) : f.fracBits ≤ f.bias := by cases f <;> decide

theorem one_le_fracBits (f : Fmt) : 1 ≤ f.fracBits := by cases f <;> decide

theorem two_pow_bits (f : Fmt) : 2 ^ f.bits = 2 * ((2 * f.bias + 2) * 2 ^ f.fracBits) := by
  rw [bits_eq, pow_succ, pow_add, two_pow_expBits]
  ring

/-! ## The fields of a datum, and the datum of fields -/

/-- The weight of the sign bit. -/
def signWeight (f : Fmt) (sign : Bool) : Nat := if sign then 2 ^ (f.bits - 1) else 0

theorem signWeight_eq (f : Fmt) (sign : Bool) :
    signWeight f sign = sign.toNat * ((2 * f.bias + 2) * 2 ^ f.fracBits) := by
  rw [signWeight, bits_sub_one, pow_add, two_pow_expBits, mul_comm (2 ^ f.fracBits)]
  cases sign <;> simp

theorem fpPack_eq (f : Fmt) (sign : Bool) (e frac : Nat) :
    fpPack f sign e frac = BitVec.ofNat f.bits (signWeight f sign + e * 2 ^ f.fracBits + frac) := rfl

theorem fpFrac_lt (f : Fmt) (x : BitVec f.bits) : fpFrac f x < 2 ^ f.fracBits := Nat.mod_lt _ (by positivity)

theorem fpSign_eq (f : Fmt) (x : BitVec f.bits) :
    fpSign f x = decide (x.toNat / 2 ^ f.fracBits / 2 ^ f.expBits % 2 = 1) := by
  rw [fpSign, BitVec.getLsbD, bits_sub_one, Nat.testBit_eq_decide_div_mod_eq, pow_add, Nat.div_div_eq_div_mul]

/-- A datum is its three fields (R91). -/
theorem toNat_eq_fields (f : Fmt) (x : BitVec f.bits) :
    x.toNat = signWeight f (fpSign f x) + fpExp f x * 2 ^ f.fracBits + fpFrac f x := by
  have hx : x.toNat < 2 * ((2 * f.bias + 2) * 2 ^ f.fracBits) := two_pow_bits f ▸ x.isLt
  have hsign : (fpSign f x).toNat = x.toNat / 2 ^ f.fracBits / 2 ^ f.expBits := by
    have hlt : x.toNat / 2 ^ f.fracBits / 2 ^ f.expBits < 2 := by
      rw [Nat.div_div_eq_div_mul, Nat.div_lt_iff_lt_mul (by positivity), two_pow_expBits]
      linarith
    rw [fpSign_eq]
    generalize x.toNat / 2 ^ f.fracBits / 2 ^ f.expBits = q at hlt
    interval_cases q <;> rfl
  have hexp := Nat.div_add_mod (x.toNat / 2 ^ f.fracBits) (2 ^ f.expBits)
  have hfrac := Nat.div_add_mod x.toNat (2 ^ f.fracBits)
  rw [signWeight_eq, hsign, fpExp, fpFrac, ← two_pow_expBits]
  nlinarith

theorem fpPack_fields (f : Fmt) (x : BitVec f.bits) : fpPack f (fpSign f x) (fpExp f x) (fpFrac f x) = x := by
  rw [fpPack_eq, ← toNat_eq_fields, BitVec.ofNat_toNat, BitVec.setWidth_eq]

section Pack

variable {f : Fmt} {sign : Bool} {e frac : Nat} (he : e ≤ f.expMax) (hfrac : frac < 2 ^ f.fracBits)
include he hfrac

theorem toNat_fpPack : (fpPack f sign e frac).toNat = signWeight f sign + e * 2 ^ f.fracBits + frac := by
  rw [expMax_eq] at he
  rw [fpPack_eq, BitVec.toNat_ofNat, Nat.mod_eq_of_lt]
  rw [two_pow_bits, signWeight_eq]
  have := Nat.mul_le_mul_right (2 ^ f.fracBits) (Nat.succ_le_succ he)
  cases sign <;> simp <;> nlinarith

theorem fpFrac_fpPack : fpFrac f (fpPack f sign e frac) = frac := by
  rw [fpFrac, toNat_fpPack he hfrac, signWeight_eq, ← mul_assoc, ← Nat.add_mul, Nat.mul_add_mod_self_right,
    Nat.mod_eq_of_lt hfrac]

theorem toNat_div_fpPack :
    (fpPack f sign e frac).toNat / 2 ^ f.fracBits = sign.toNat * 2 ^ f.expBits + e := by
  rw [toNat_fpPack he hfrac, signWeight_eq, ← mul_assoc, ← Nat.add_mul, add_comm,
    Nat.add_mul_div_right _ _ (by positivity), Nat.div_eq_of_lt hfrac, two_pow_expBits, zero_add]

theorem fpExp_fpPack : fpExp f (fpPack f sign e frac) = e := by
  rw [fpExp, toNat_div_fpPack he hfrac, Nat.mul_add_mod_self_right, Nat.mod_eq_of_lt]
  have := expMax_eq f
  have := two_pow_expBits f
  omega

theorem fpSign_fpPack : fpSign f (fpPack f sign e frac) = sign := by
  have he' : e < 2 ^ f.expBits := by
    have := expMax_eq f
    have := two_pow_expBits f
    omega
  rw [fpSign_eq, toNat_div_fpPack he hfrac, add_comm, Nat.add_mul_div_right _ _ (by positivity), Nat.div_eq_of_lt he',
    zero_add]
  cases sign <;> rfl

end Pack

theorem fpSign_fpZero (f : Fmt) (sign : Bool) : fpSign f (fpZero f sign) = sign :=
  fpSign_fpPack (Nat.zero_le _) (by positivity)

theorem fpExp_fpZero (f : Fmt) (sign : Bool) : fpExp f (fpZero f sign) = 0 :=
  fpExp_fpPack (Nat.zero_le _) (by positivity)

theorem fpFrac_fpZero (f : Fmt) (sign : Bool) : fpFrac f (fpZero f sign) = 0 :=
  fpFrac_fpPack (Nat.zero_le _) (by positivity)

theorem eq_fpZero {f : Fmt} {x : BitVec f.bits} (he : fpExp f x = 0) (hf : fpFrac f x = 0) :
    x = fpZero f (fpSign f x) := by
  conv_lhs => rw [← fpPack_fields f x, he, hf]
  rfl

end Sys2Proof.Proofs
end

section
/-! PROOFS of the family 40_frint_operation: the operands that are not rounded, which are infinities, zeros, NaNs and
flushed denormals (O36, O37, O38; R93 to R95, R100, R101). -/

namespace Sys2Proof.Proofs

open Sys2Proof.Machine Sys2Proof.Safety

/-! ## The outcome of each class -/

/-- The five kinds of operand (R93). -/
theorem operand_cases (f : Fmt) (x : BitVec f.bits) (fpcr : BitVec 64) :
    IsNaN f x ∨ (fpExp f x = f.expMax ∧ fpFrac f x = 0) ∨ (fpExp f x = 0 ∧ fpFrac f x = 0) ∨
      (IsDenormal f x ∧ fpFlushes f fpcr = true) ∨ fpClassify f x fpcr = .nonzero := by
  rw [fpClassify_eq_nonzero_iff, IsNaN, IsFinite]
  tauto

section Classes

variable {f : Fmt} {x : BitVec f.bits} (fpcr : BitVec 64) (rounding : FPRounding) (exact : Bool)

theorem fpRoundInt_of_infinity (he : fpExp f x = f.expMax) (hf : fpFrac f x = 0) :
    fpRoundIntValue f x fpcr rounding exact = x ∧ fpRoundIntFlags f x fpcr rounding exact = .none := by
  have hclass : fpClassify f x fpcr = .infinity := by rw [fpClassify, if_pos he, if_pos hf]
  rw [fpRoundIntValue, fpRoundIntFlags, hclass]
  exact ⟨rfl, rfl⟩

theorem fpRoundInt_of_zero (he : fpExp f x = 0) (hf : fpFrac f x = 0) :
    fpRoundIntValue f x fpcr rounding exact = x ∧ fpRoundIntFlags f x fpcr rounding exact = .none := by
  have hclass : fpClassify f x fpcr = .zero false := by
    rw [fpClassify, if_neg (he ▸ (expMax_ne_zero f).symm), if_pos ⟨he, hf⟩]
  rw [fpRoundIntValue, fpRoundIntFlags, hclass]
  exact ⟨(eq_fpZero he hf).symm, rfl⟩

theorem fpRoundInt_of_flushed (hd : IsDenormal f x) (hflush : fpFlushes f fpcr = true) :
    fpRoundIntValue f x fpcr rounding exact = fpZero f (fpSign f x) ∧
      fpRoundIntFlags f x fpcr rounding exact = { inputDenorm := fpFlushSignals f fpcr } := by
  rw [fpRoundIntValue, fpRoundIntFlags, (fpClassify_eq_flushed_iff f x fpcr).mpr ⟨hd, hflush⟩]
  exact ⟨rfl, rfl⟩

theorem fpRoundInt_of_nonzero (h : fpClassify f x fpcr = .nonzero) :
    fpRoundIntValue f x fpcr rounding exact = fpRoundNonzero f x rounding ∧ fpRoundIntFlags f x fpcr rounding exact =
      { inexact := exact && decide (fpErr (fpNum f x) (fpDenExp f x) ≠ 0) } := by
  rw [fpRoundIntValue, fpRoundIntFlags, h]
  exact ⟨rfl, rfl⟩

/-- A NaN is processed; Invalid Operation is signalled when fraction bit `F-1` is 0, and nothing else is (R100). -/
theorem fpRoundInt_of_NaN (h : IsNaN f x) : fpRoundIntValue f x fpcr rounding exact = fpProcessNaN f x fpcr ∧
    fpRoundIntFlags f x fpcr rounding exact = { invalidOp := !x.getLsbD (f.fracBits - 1) } := by
  obtain ⟨he, hf⟩ := h
  cases hquiet : x.getLsbD (f.fracBits - 1) with
  | true =>
    have hclass : fpClassify f x fpcr = .quietNaN := by rw [fpClassify, if_pos he, if_neg hf, if_pos hquiet]
    rw [fpRoundIntValue, fpRoundIntFlags, hclass]
    exact ⟨rfl, rfl⟩
  | false =>
    have hclass : fpClassify f x fpcr = .signallingNaN := by
      rw [fpClassify, if_pos he, if_neg hf, if_neg (Bool.eq_false_iff.mp hquiet)]
    rw [fpRoundIntValue, fpRoundIntFlags, hclass]
    exact ⟨rfl, rfl⟩

end Classes

/-- Settles O36, one clause for each of the three classes. -/
theorem infinitiesAndZerosPassThrough : Obligations.InfinitiesAndZerosPassThrough := by
  intro f op fpcr rounding exact
  refine ⟨fun he hf => fpRoundInt_of_infinity fpcr rounding exact he hf, fun he hf => ?_, fun hnan => ?_⟩
  · obtain ⟨hvalue, hflags⟩ := fpRoundInt_of_zero fpcr rounding exact he hf
    exact ⟨hvalue, eq_fpZero he hf, hflags⟩
  · obtain ⟨hvalue, hflags⟩ := fpRoundInt_of_NaN fpcr rounding exact hnan
    exact ⟨hvalue, by rw [hflags]⟩

/-! ## Denormals (R95) -/

theorem fpFlushes_iff (f : Fmt) (fpcr : BitVec 64) : fpFlushes f fpcr = true ↔ (f = .half ∧ fpcrFZ16 fpcr = true) ∨
    (f ≠ .half ∧ ((fpcrFZ fpcr = true ∧ fpcrAH fpcr = false) ∨ fpcrFIZ fpcr = true)) := by
  cases f with
  | half => simp [fpFlushes]
  | single => simp [fpFlushes, fpFlushFZ]
  | double => simp [fpFlushes, fpFlushFZ]

theorem fpFlushSignals_iff (f : Fmt) (fpcr : BitVec 64) :
    fpFlushSignals f fpcr = true ↔ f ≠ .half ∧ fpcrFZ fpcr = true ∧ fpcrAH fpcr = false := by
  cases f with
  | half => simp [fpFlushSignals]
  | single => simp [fpFlushSignals, fpFlushFZ]
  | double => simp [fpFlushSignals, fpFlushFZ]

theorem abs_sign (b : Bool) : |(if b then -1 else 1 : ℚ)| = 1 := by cases b <;> simp

/-- The magnitude of a denormal is positive and below the least normal one (R95). -/
theorem abs_fpToRat_of_denormal {f : Fmt} {x : BitVec f.bits} (h : IsDenormal f x) :
    0 < |fpToRat f x| ∧ |fpToRat f x| < 2 ^ (1 - (f.bias : ℤ)) := by
  obtain ⟨he, hf⟩ := h
  have hpos : (0 : ℚ) < fpFrac f x := by exact_mod_cast Nat.pos_of_ne_zero hf
  have hlt : (fpFrac f x : ℚ) < 2 ^ f.fracBits := by exact_mod_cast fpFrac_lt f x
  have habs : |fpToRat f x| = fpFrac f x * 2 ^ (1 - (f.bias : ℤ) - (f.fracBits : ℤ)) := by
    rw [fpToRat, if_pos he, abs_mul, abs_sign, one_mul, abs_of_pos (by positivity)]
  have hsplit : (2 : ℚ) ^ (1 - (f.bias : ℤ)) = 2 ^ f.fracBits * 2 ^ (1 - (f.bias : ℤ) - (f.fracBits : ℤ)) := by
    rw [← zpow_natCast, ← zpow_add₀ (by norm_num)]
    congr 1
    ring
  rw [habs, hsplit]
  exact ⟨by positivity, mul_lt_mul_of_pos_right hlt (by positivity)⟩

theorem two_zpow_one_sub_bias_le (f : Fmt) : (2 : ℚ) ^ (1 - (f.bias : ℤ)) ≤ 1 / 2 := by
  have hbias : 1 - (f.bias : ℤ) ≤ -1 := by cases f <;> decide
  calc (2 : ℚ) ^ (1 - (f.bias : ℤ)) ≤ 2 ^ (-1 : ℤ) := zpow_le_zpow_right₀ (by norm_num) hbias
    _ = 1 / 2 := by norm_num

/-- Without `HaveAFP` the bits `AH` and `FIZ` read as zero (R29). -/
theorem fpcrAFP_reads_zero {s : State} (h : s.cfg.haveAFP = false) :
    fpcrAH s.fpcrValue = false ∧ fpcrFIZ s.fpcrValue = false := by
  have hlive : fpcrLiveBits s.cfg &&& fpcrAFPBits = 0#64 := by
    cases htrap : s.cfg.fpTrapSupport
    · simp only [fpcrLiveBits, h, htrap]
      decide
    · simp only [fpcrLiveBits, h, htrap]
      decide
  have hread : s.fpcrValue &&& fpcrAFPBits = 0#64 &&& fpcrAFPBits := by
    rw [State.fpcrValue, BitVec.and_assoc, hlive, BitVec.and_zero, BitVec.zero_and]
  exact ⟨getLsbD_eq_of_and_eq (j := 1) hread rfl, getLsbD_eq_of_and_eq (j := 0) hread rfl⟩

/-- Settles O37: the flushed denormals are of class zero, the others are nonzero values. -/
theorem denormalsAreFlushedExactlyWhen : Obligations.DenormalsAreFlushedExactlyWhen := by
  refine ⟨fun f op fpcr rounding exact hd => ?_, fun s h => fpcrAFP_reads_zero h⟩
  split_ifs with hflush
  · rw [← fpFlushes_iff] at hflush
    simp only [← fpFlushSignals_iff, Bool.decide_eq_true]
    exact fpRoundInt_of_flushed fpcr rounding exact hd hflush
  · rw [← fpFlushes_iff] at hflush
    obtain ⟨hpos, hlt⟩ := abs_fpToRat_of_denormal hd
    obtain ⟨he, hf⟩ := id hd
    refine ⟨?_, hpos, hlt, hlt.trans_le (two_zpow_one_sub_bias_le f)⟩
    rw [fpClassify_eq_nonzero_iff]
    exact ⟨fun hmax => expMax_ne_zero f (hmax.symm.trans he), fun hz => hf hz.2, fun h => hflush h.2⟩

/-! ## NaNs (R100, R101) -/

theorem getLsbD_quieten (f : Fmt) (x : BitVec f.bits) (j : Nat) :
    (x ||| BitVec.twoPow f.bits (f.fracBits - 1)).getLsbD j = (decide (j = f.fracBits - 1) || x.getLsbD j) := by
  have := bits_eq f
  rw [BitVec.getLsbD_or, BitVec.getLsbD_twoPow, Bool.or_comm, decide_eq_true (by omega), Bool.true_and]
  simp only [eq_comm]

/-- Settles O38: the processing, and the default NaNs format by format. -/
theorem naNsAreProcessed : Obligations.NaNsAreProcessed := by
  refine ⟨fun f op fpcr rounding exact hnan => ?_, fun fpcr hAH => ?_, fun fpcr hAH => ?_,
    fun s h => (fpcrAFP_reads_zero h).1⟩
  · obtain ⟨hvalue, hflags⟩ := fpRoundInt_of_NaN fpcr rounding exact hnan
    rw [hvalue, fpProcessNaN]
    refine ⟨fun hDN => if_pos hDN, fun hDN j => ?_, hflags⟩
    rw [if_neg (Bool.eq_false_iff.mp hDN), getLsbD_quieten]
  all_goals
    simp only [fpDefaultNaN, hAH]
    exact ⟨rfl, rfl, rfl⟩

end Sys2Proof.Proofs
end

section
/-! PROOFS of the family 40_frint_operation: rounding a number to an integer (R96). The rounding over the rationals
keeps integers, is monotone and moves a number by less than 1; the model's rounding of a fraction is that of its
quotient; and in terms of magnitudes it is the quotient, one more when the mode rounds away from zero. -/

namespace Sys2Proof.Proofs

open Sys2Proof.Machine Sys2Proof.Safety

/-! ## Over the rationals -/

theorem roundUpRat_zero (rounding : FPRounding) (i : ℤ) : roundUpRat rounding i 0 = false := by
  cases rounding <;> norm_num [roundUpRat]

/-- Whatever rounds up still does with a greater fraction. -/
theorem roundUpRat_mono {rounding : FPRounding} {i : ℤ} {a b : ℚ} (ha : 0 ≤ a) (hab : a ≤ b)
    (h : roundUpRat rounding i a = true) : roundUpRat rounding i b = true := by
  have hne : a ≠ 0 → b ≠ 0 := fun hne => ((lt_of_le_of_ne ha hne.symm).trans_le hab).ne'
  have hhalf : ∀ {p : Prop}, (1 / 2 < a ∨ a = 1 / 2 ∧ p) → 1 / 2 < b ∨ b = 1 / 2 ∧ p := by
    rintro p (h | ⟨h, hp⟩)
    · exact .inl (h.trans_le hab)
    · rcases lt_or_eq_of_le hab with hlt | rfl
      · exact .inl (h ▸ hlt)
      · exact .inr ⟨h, hp⟩
  cases rounding with
  | negInf => exact h
  | posInf =>
    simp only [roundUpRat, decide_eq_true_eq] at h ⊢
    exact hne h
  | zero =>
    simp only [roundUpRat, Bool.and_eq_true, decide_eq_true_eq] at h ⊢
    exact ⟨hne h.1, h.2⟩
  | tieEven =>
    simp only [roundUpRat, Bool.or_eq_true, Bool.and_eq_true, decide_eq_true_eq] at h ⊢
    exact hhalf h
  | tieAway =>
    simp only [roundUpRat, Bool.or_eq_true, Bool.and_eq_true, decide_eq_true_eq] at h ⊢
    exact hhalf h

/-- The two integers a number can round to, and when. -/
theorem roundRat_cases (rounding : FPRounding) (v : ℚ) :
    (roundUpRat rounding ⌊v⌋ (v - ⌊v⌋) = true ∧ roundRat rounding v = ⌊v⌋ + 1) ∨
      (roundUpRat rounding ⌊v⌋ (v - ⌊v⌋) = false ∧ roundRat rounding v = ⌊v⌋) := by
  unfold roundRat
  cases roundUpRat rounding ⌊v⌋ (v - ⌊v⌋) <;> simp

theorem roundRat_intCast (rounding : FPRounding) (n : ℤ) : roundRat rounding n = n := by
  rw [roundRat, Int.floor_intCast, sub_self, roundUpRat_zero]
  rfl

theorem roundRat_zero (rounding : FPRounding) : roundRat rounding 0 = 0 := by
  exact_mod_cast roundRat_intCast rounding 0

theorem roundRat_mono (rounding : FPRounding) {a b : ℚ} (hab : a ≤ b) : roundRat rounding a ≤ roundRat rounding b := by
  rcases lt_or_eq_of_le (Int.floor_mono hab) with hlt | heq
  · rcases roundRat_cases rounding a with ⟨-, ha⟩ | ⟨-, ha⟩
    · rcases roundRat_cases rounding b with ⟨-, hb⟩ | ⟨-, hb⟩ <;> omega
    · rcases roundRat_cases rounding b with ⟨-, hb⟩ | ⟨-, hb⟩ <;> omega
  · have hup := roundUpRat_mono (rounding := rounding) (i := ⌊b⌋) (a := a - ⌊b⌋) (b := b - ⌊b⌋)
      (by rw [← heq]; exact Int.fract_nonneg a) (by linarith)
    rcases roundRat_cases rounding a with ⟨hua, ha⟩ | ⟨-, ha⟩
    · rcases roundRat_cases rounding b with ⟨-, hb⟩ | ⟨hub, hb⟩
      · omega
      · rw [heq] at hua
        rw [hup hua] at hub
        cases hub
    · rcases roundRat_cases rounding b with ⟨-, hb⟩ | ⟨-, hb⟩ <;> omega

theorem abs_roundRat_sub_lt_one (rounding : FPRounding) (v : ℚ) : |(roundRat rounding v : ℚ) - v| < 1 := by
  have hlt := Int.lt_floor_add_one v
  have hle := Int.floor_le v
  rcases roundRat_cases rounding v with ⟨hup, hr⟩ | ⟨-, hr⟩
  · have hne : v - ⌊v⌋ ≠ 0 := by
      intro hzero
      rw [hzero, roundUpRat_zero] at hup
      cases hup
    have hpos : 0 < v - ⌊v⌋ := lt_of_le_of_ne (by linarith) hne.symm
    rw [hr, abs_lt]
    push_cast
    constructor <;> linarith
  · rw [hr, abs_lt]
    constructor <;> linarith

theorem abs_roundRat_sub_le_half {rounding : FPRounding} (hnearest : rounding = .tieEven ∨ rounding = .tieAway)
    (v : ℚ) : |(roundRat rounding v : ℚ) - v| ≤ 1 / 2 := by
  have hlt := Int.lt_floor_add_one v
  have hle := Int.floor_le v
  have hup : roundUpRat rounding ⌊v⌋ (v - ⌊v⌋) = true → 1 / 2 ≤ v - ⌊v⌋ := by
    rcases hnearest with rfl | rfl
    all_goals
      simp only [roundUpRat, Bool.or_eq_true, Bool.and_eq_true, decide_eq_true_eq]
      rintro (h | ⟨h, -⟩) <;> linarith
  have hdown : roundUpRat rounding ⌊v⌋ (v - ⌊v⌋) = false → v - ⌊v⌋ ≤ 1 / 2 := by
    rcases hnearest with rfl | rfl
    all_goals
      simp only [roundUpRat, Bool.or_eq_false_iff, decide_eq_false_iff_not]
      exact fun h => not_lt.mp h.1
  rcases roundRat_cases rounding v with ⟨hu, hr⟩ | ⟨hu, hr⟩
  · have := hup hu
    rw [hr, abs_le]
    push_cast
    constructor <;> linarith
  · have := hdown hu
    rw [hr, abs_le]
    constructor <;> linarith

/-- The model's rounding of `num / 2^k` in integers is the rounding of the quotient (R96). -/
theorem roundRat_div (rounding : FPRounding) (num : ℤ) (k : ℕ) :
    roundRat rounding ((num : ℚ) / 2 ^ k) = fpRoundToInt rounding num k := by
  have hfloor : ⌊(num : ℚ) / 2 ^ k⌋ = fpFloor num k := by
    rw [fpFloor, ← Rat.floor_intCast_div_natCast]
    push_cast
    rfl
  have hpos : (0 : ℤ) < (2 ^ k : ℕ) := by positivity
  have herr : (num : ℚ) / 2 ^ k - fpFloor num k = fpErr num k / 2 ^ k := by
    have hdiv := Int.emod_add_mul_ediv num (2 ^ k : ℕ)
    have hcast : (fpErr num k : ℤ) = num % (2 ^ k : ℕ) := Int.toNat_of_nonneg (Int.emod_nonneg num hpos.ne')
    have hsum : (num : ℚ) = fpErr num k + 2 ^ k * fpFloor num k := by
      rw [← hcast] at hdiv
      exact_mod_cast hdiv.symm
    rw [hsum]
    field_simp
    ring
  have hlt : (1 : ℚ) / 2 < fpErr num k / 2 ^ k ↔ 2 ^ k < 2 * fpErr num k := by
    rw [div_lt_div_iff₀ (by norm_num) (by positivity), one_mul, mul_comm _ (2 : ℚ)]
    exact_mod_cast Iff.rfl
  have heq : (fpErr num k : ℚ) / 2 ^ k = 1 / 2 ↔ 2 * fpErr num k = 2 ^ k := by
    rw [div_eq_div_iff (by positivity) (by norm_num), one_mul, mul_comm _ (2 : ℚ)]
    exact_mod_cast Iff.rfl
  have hzero : (fpErr num k : ℚ) / 2 ^ k = 0 ↔ fpErr num k = 0 := by
    rw [div_eq_zero_iff, or_iff_left (by positivity)]
    exact_mod_cast Iff.rfl
  have hodd : fpFloor num k % 2 = 1 ↔ fpFloor num k % 2 ≠ 0 := by omega
  have hup : roundUpRat rounding (fpFloor num k) (fpErr num k / 2 ^ k) =
      fpRoundUp rounding (fpFloor num k) (fpErr num k) k := by
    cases rounding <;> simp only [roundUpRat, fpRoundUp, ne_eq, hlt, heq, hzero, hodd]
  rw [roundRat, hfloor, herr, hup, fpRoundToInt]

/-! ## In magnitudes -/

/-- The mode takes a number of the given sign and of magnitude `q + low / whole` away from zero, to `q + 1` (R90). -/
def roundsAway (rounding : FPRounding) (sign : Bool) (q low whole : ℕ) : Bool :=
  match rounding with
  | .tieEven => decide (whole < 2 * low) || (decide (2 * low = whole) && decide (q % 2 = 1))
  | .tieAway => decide (whole ≤ 2 * low)
  | .zero => false
  | .posInf => decide (low ≠ 0) && !sign
  | .negInf => decide (low ≠ 0) && sign

/-- The floor and the remainder of a number are the ones that reconstruct it. -/
theorem fpFloor_fpErr_of_eq {num i : ℤ} {err k : ℕ} (h : num = i * (2 ^ k : ℕ) + err) (herr : err < 2 ^ k) :
    fpFloor num k = i ∧ fpErr num k = err := by
  have hpos : (0 : ℤ) < (2 ^ k : ℕ) := by positivity
  obtain ⟨hdiv, hmod⟩ := (Int.ediv_emod_unique (a := num) (r := err) (q := i) hpos).mpr
    ⟨by rw [h]; ring, by positivity, by exact_mod_cast herr⟩
  exact ⟨hdiv, by rw [fpErr, hmod, Int.toNat_natCast]⟩

theorem fpRoundUp_zero (rounding : FPRounding) (i : ℤ) (k : ℕ) : fpRoundUp rounding i 0 k = false := by
  cases rounding <;> simp [fpRoundUp, (Nat.two_pow_pos k).ne]

theorem roundsAway_zero (rounding : FPRounding) (sign : Bool) (q : ℕ) {whole : ℕ} (h : 0 < whole) :
    roundsAway rounding sign q 0 whole = false := by
  cases rounding <;> simp [roundsAway] <;> omega

/-- For a number that is not negative, up is away from zero. -/
theorem fpRoundUp_natCast (rounding : FPRounding) (q low k : ℕ) :
    fpRoundUp rounding q low k = roundsAway rounding false q low (2 ^ k) := by
  rw [Bool.eq_iff_iff]
  cases rounding <;> simp [fpRoundUp, roundsAway] <;> omega

/-- For a negative number that is not an integer, up is toward zero. -/
theorem fpRoundUp_neg (rounding : FPRounding) (q : ℕ) {low k : ℕ} (hpos : 0 < low) (hlt : low < 2 ^ k) :
    fpRoundUp rounding (-(q : ℤ) - 1) (2 ^ k - low) k = !roundsAway rounding true q low (2 ^ k) := by
  rw [Bool.eq_iff_iff]
  cases rounding <;> simp [fpRoundUp, roundsAway] <;> omega

/-- The sign of a number as a factor. -/
def signFactor (sign : Bool) : ℤ := if sign then -1 else 1

/-- Rounding `±m / 2^k` in magnitudes: the quotient, one more if the mode rounds away from zero. -/
theorem fpRoundToInt_signFactor_mul (rounding : FPRounding) (sign : Bool) (m k : ℕ) :
    fpRoundToInt rounding (signFactor sign * m) k = signFactor sign *
      ((m / 2 ^ k + (roundsAway rounding sign (m / 2 ^ k) (m % 2 ^ k) (2 ^ k)).toNat : ℕ) : ℤ) := by
  have hm : (m : ℤ) = (m / 2 ^ k : ℕ) * (2 ^ k : ℕ) + (m % 2 ^ k : ℕ) := by
    exact_mod_cast (Nat.div_add_mod' m (2 ^ k)).symm
  have hlt : m % 2 ^ k < 2 ^ k := Nat.mod_lt m (by positivity)
  generalize m / 2 ^ k = q at *
  generalize m % 2 ^ k = low at *
  cases sign with
  | false =>
    obtain ⟨hfloor, herr⟩ := fpFloor_fpErr_of_eq (num := signFactor false * m) (by simpa [signFactor] using hm) hlt
    rw [fpRoundToInt, hfloor, herr, fpRoundUp_natCast]
    cases roundsAway rounding false q low (2 ^ k) <;> simp [signFactor]
  | true =>
    rcases Nat.eq_zero_or_pos low with rfl | hpos
    · obtain ⟨hfloor, herr⟩ := fpFloor_fpErr_of_eq (num := signFactor true * m) (i := -q) (err := 0) (k := k)
        (by rw [signFactor, if_pos rfl, hm]; push_cast; ring) hlt
      rw [fpRoundToInt, hfloor, herr, fpRoundUp_zero, roundsAway_zero _ _ _ hlt]
      simp [signFactor]
    · obtain ⟨hfloor, herr⟩ := fpFloor_fpErr_of_eq (num := signFactor true * m) (i := -q - 1) (err := 2 ^ k - low)
        (k := k) (by rw [signFactor, if_pos rfl, Nat.cast_sub hlt.le, hm]; ring) (by omega)
      rw [fpRoundToInt, hfloor, herr, fpRoundUp_neg rounding q hpos hlt]
      cases roundsAway rounding true q low (2 ^ k)
      · simp [signFactor]
      · simp [signFactor, sub_eq_neg_add]

end Sys2Proof.Proofs
end

section
/-! PROOFS of the family 40_frint_operation: the datum of an integer (R97). The value of a datum in terms of its
fields, and that the model's re-encoding of an integer is the datum whose value the integer is, whichever that is. -/

namespace Sys2Proof.Proofs

open Sys2Proof.Machine Sys2Proof.Safety

/-! ## Values in terms of magnitudes -/

theorem fpNum_of_fpEffExp_le {f : Fmt} {x : BitVec f.bits} (h : fpEffExp f x ≤ f.bias + f.fracBits) :
    fpNum f x = signFactor (fpSign f x) * fpSignificand f x := by
  rw [fpNum, Nat.sub_eq_zero_of_le h, signFactor]
  cases fpSign f x <;> simp

theorem abs_fpToRat (f : Fmt) (x : BitVec f.bits) :
    |fpToRat f x| = fpSignificand f x * 2 ^ ((fpEffExp f x : ℤ) - ((f.bias + f.fracBits : ℕ) : ℤ)) := by
  rw [fpToRat_eq_significand, abs_mul, abs_sign, one_mul, abs_of_nonneg (by positivity)]

theorem fpToRat_eq_sign_mul_abs (f : Fmt) (x : BitVec f.bits) :
    fpToRat f x = signFactor (fpSign f x) * |fpToRat f x| := by
  rw [abs_fpToRat, fpToRat_eq_significand, signFactor]
  cases fpSign f x <;> simp

theorem fpSign_iff_neg {f : Fmt} {x : BitVec f.bits} (h : fpToRat f x ≠ 0) : fpSign f x = true ↔ fpToRat f x < 0 := by
  have hpos : 0 < |fpToRat f x| := abs_pos.mpr h
  rw [fpToRat_eq_sign_mul_abs]
  cases fpSign f x <;> simp [signFactor, h]

theorem fpEffExp_of_ne_zero {f : Fmt} {x : BitVec f.bits} (h : fpExp f x ≠ 0) : fpEffExp f x = fpExp f x := if_neg h

theorem fpSignificand_of_ne_zero {f : Fmt} {x : BitVec f.bits} (h : fpExp f x ≠ 0) :
    fpSignificand f x = 2 ^ f.fracBits + fpFrac f x := if_neg h

theorem fpSignificand_lt (f : Fmt) (x : BitVec f.bits) : fpSignificand f x < 2 ^ (f.fracBits + 1) := by
  have := fpFrac_lt f x
  rw [fpSignificand, pow_succ]
  split <;> omega

/-- Below the exponent of 1.0 the magnitude is below 1: the significand is below the denominator (R99). -/
theorem fpSignificand_lt_of_lt_bias {f : Fmt} {x : BitVec f.bits} (h : fpExp f x < f.bias) :
    fpSignificand f x < 2 ^ fpDenExp f x := by
  by_cases he : fpExp f x = 0
  · have hbias : f.fracBits ≤ f.bias + f.fracBits - 1 := by omega
    rw [fpSignificand, fpDenExp, fpEffExp, if_pos he, if_pos he]
    exact (fpFrac_lt f x).trans_le (Nat.pow_le_pow_right (by omega) hbias)
  · refine (fpSignificand_lt f x).trans_le (Nat.pow_le_pow_right (by omega) ?_)
    rw [fpDenExp, fpEffExp_of_ne_zero he]
    omega

theorem bias_pos (f : Fmt) : 0 < f.bias := by cases f <;> decide

theorem abs_fpToRat_lt_one {f : Fmt} {x : BitVec f.bits} (h : fpExp f x < f.bias) : |fpToRat f x| < 1 := by
  have heff : fpEffExp f x ≤ f.bias + f.fracBits := by
    have := bias_pos f
    rw [fpEffExp]
    split <;> omega
  have habs : |(fpNum f x : ℚ)| = fpSignificand f x := by
    rw [fpNum_of_fpEffExp_le heff, signFactor]
    cases fpSign f x <;> simp
  rw [fpToRat_eq_num_div, abs_div, habs, abs_of_pos (by positivity), div_lt_one (by positivity)]
  exact_mod_cast fpSignificand_lt_of_lt_bias h

/-- The value of a datum given by its fields, of which the fraction may reach `2^F`: it then carries into the exponent.
-/
theorem fpToRat_fpPack {f : Fmt} {sign : Bool} {e frac : ℕ} (hpos : 0 < e) (he : e + 1 < f.expMax)
    (hfrac : frac ≤ 2 ^ f.fracBits) : IsFinite f (fpPack f sign e frac) ∧
      fpToRat f (fpPack f sign e frac) = signFactor sign *
        (((2 ^ f.fracBits + frac : ℕ) : ℚ) * 2 ^ ((e : ℤ) - ((f.bias + f.fracBits : ℕ) : ℤ))) := by
  have hfields : ∀ {e frac : ℕ}, 0 < e → e < f.expMax → frac < 2 ^ f.fracBits → IsFinite f (fpPack f sign e frac) ∧
      fpToRat f (fpPack f sign e frac) = signFactor sign *
        (((2 ^ f.fracBits + frac : ℕ) : ℚ) * 2 ^ ((e : ℤ) - ((f.bias + f.fracBits : ℕ) : ℤ))) := by
    intro e frac hpos he hfrac
    have hexp : fpExp f (fpPack f sign e frac) = e := fpExp_fpPack he.le hfrac
    have hne : fpExp f (fpPack f sign e frac) ≠ 0 := hexp.trans_ne hpos.ne'
    refine ⟨hexp.trans_ne he.ne, ?_⟩
    rw [fpToRat_eq_sign_mul_abs, abs_fpToRat, fpEffExp_of_ne_zero hne, fpSignificand_of_ne_zero hne, hexp,
      fpSign_fpPack he.le hfrac, fpFrac_fpPack he.le hfrac]
  rcases Nat.lt_or_eq_of_le hfrac with hlt | rfl
  · exact hfields hpos (by omega) hlt
  · have hcarry : fpPack f sign e (2 ^ f.fracBits) = fpPack f sign (e + 1) 0 := by
      rw [fpPack_eq, fpPack_eq]
      congr 1
      ring
    obtain ⟨hfin, hvalue⟩ := hfields (e := e + 1) (frac := 0) (by omega) he (by positivity)
    rw [hcarry, hvalue]
    refine ⟨hfin, ?_⟩
    have hexp : ((e + 1 : ℕ) : ℤ) - ((f.bias + f.fracBits : ℕ) : ℤ) =
        (e : ℤ) - ((f.bias + f.fracBits : ℕ) : ℤ) + 1 := by
      push_cast
      ring
    rw [hexp, zpow_add_one₀ (by norm_num)]
    push_cast
    ring

theorem fpToRat_fpOne (f : Fmt) (sign : Bool) :
    IsFinite f (fpOne f sign) ∧ fpToRat f (fpOne f sign) = signFactor sign := by
  have hbias := bias_pos f
  obtain ⟨hfin, hvalue⟩ := fpToRat_fpPack (f := f) (sign := sign) (frac := 0) hbias
    (by rw [expMax_eq]; omega) (Nat.zero_le _)
  refine ⟨hfin, hvalue.trans ?_⟩
  have hexp : (f.bias : ℤ) - ((f.bias + f.fracBits : ℕ) : ℤ) = -(f.fracBits : ℤ) := by
    push_cast
    ring
  rw [hexp, zpow_neg, zpow_natCast]
  push_cast
  field_simp
  ring

theorem fpToRat_fpZero (f : Fmt) (sign : Bool) : IsFinite f (fpZero f sign) ∧ fpToRat f (fpZero f sign) = 0 :=
  ⟨(fpExp_fpZero f sign).trans_ne (expMax_ne_zero f).symm,
    fpToRat_of_zero (fpExp_fpZero f sign) (fpFrac_fpZero f sign)⟩

/-! ## Re-encoding an integer (R97) -/

/-- The fields that the re-encoding reads off `n = (1 + frac / 2^F) * 2^l`: the exponent `l` and the fraction. -/
theorem encode_fields {n F frac l : ℕ} (hfrac : frac < 2 ^ F) (h : n * 2 ^ F = (2 ^ F + frac) * 2 ^ l) :
    Nat.log2 n = l ∧ (if l ≤ F then n * 2 ^ (F - l) else n / 2 ^ (l - F)) = 2 ^ F + frac := by
  have hlow : 2 ^ l ≤ n := by
    refine Nat.le_of_mul_le_mul_right (c := 2 ^ F) ?_ (by positivity)
    rw [h, mul_comm]
    exact Nat.mul_le_mul_right _ (Nat.le_add_right _ _)
  have hhigh : n < 2 ^ (l + 1) := by
    refine Nat.lt_of_mul_lt_mul_right (a := 2 ^ F) ?_
    rw [h, pow_succ, mul_assoc, mul_comm (2 ^ l)]
    exact Nat.mul_lt_mul_of_pos_right (by omega) (by positivity)
  refine ⟨(Nat.log2_eq_iff (by have := Nat.two_pow_pos l; omega)).mpr ⟨hlow, hhigh⟩, ?_⟩
  split_ifs with hl
  · refine Nat.eq_of_mul_eq_mul_right (Nat.two_pow_pos l) ?_
    rw [mul_assoc, ← pow_add, Nat.sub_add_cancel hl, h]
  · have hsplit : 2 ^ l = 2 ^ (l - F) * 2 ^ F := by rw [← pow_add, Nat.sub_add_cancel (by omega)]
    rw [hsplit, ← mul_assoc] at h
    rw [Nat.eq_of_mul_eq_mul_right (by positivity) h, Nat.mul_div_cancel _ (by positivity)]

/-- A datum whose value is a nonzero integer is what the integer is encoded as. -/
theorem fpEncodeInt_eq {f : Fmt} {x : BitVec f.bits} {r : ℤ} (hvalue : fpToRat f x = r) (hr : r ≠ 0) :
    fpEncodeInt f r = x := by
  have habs : |fpToRat f x| = r.natAbs := by rw [hvalue, Nat.cast_natAbs, Int.cast_abs]
  have hbias : f.bias ≤ fpExp f x := by
    by_contra hlt
    have hone := abs_fpToRat_lt_one (not_le.mp hlt)
    rw [habs] at hone
    have : r.natAbs < 1 := by exact_mod_cast hone
    omega
  have hne : fpExp f x ≠ 0 := by
    have := bias_pos f
    omega
  have hmag : r.natAbs * 2 ^ f.fracBits = (2 ^ f.fracBits + fpFrac f x) * 2 ^ (fpExp f x - f.bias) := by
    rw [abs_fpToRat, fpSignificand_of_ne_zero hne, fpEffExp_of_ne_zero hne] at habs
    have hexp : (fpExp f x : ℤ) - ((f.bias + f.fracBits : ℕ) : ℤ) =
        ((fpExp f x - f.bias : ℕ) : ℤ) - (f.fracBits : ℤ) := by omega
    rw [hexp, zpow_sub₀ (by norm_num), zpow_natCast, zpow_natCast, mul_div_assoc', div_eq_iff (by positivity)] at habs
    exact_mod_cast habs.symm
  obtain ⟨hlog, hfrac⟩ := encode_fields (fpFrac_lt f x) hmag
  have hsign : decide (r < 0) = fpSign f x := by
    rw [Bool.eq_iff_iff, fpSign_iff_neg (hvalue ▸ Int.cast_ne_zero.mpr hr), hvalue]
    simp
  simp only [fpEncodeInt, hlog, hfrac, hsign, Nat.add_sub_cancel_left, Nat.add_sub_cancel' hbias]
  exact fpPack_fields f x

end Sys2Proof.Proofs
end

section
/-! PROOFS of the family 40_frint_operation: the bit-level form (R99) computes the integer R96 names, in each of its
three ranges of the exponent, and so the same value and flags as the real-number steps (O33). -/

namespace Sys2Proof.Proofs

open Sys2Proof.Machine Sys2Proof.Safety

/-- The datum is the one R97 asks for at a nonzero operand: its value is the rounded integer, and it is the zero of the
operand's sign if that is 0. -/
structure IsRounded (f : Fmt) (op : BitVec f.bits) (rounding : FPRounding) (x : BitVec f.bits) : Prop where
  finite : IsFinite f x
  value : fpToRat f x = roundRat rounding (fpToRat f op)
  zero : roundRat rounding (fpToRat f op) = 0 → x = fpZero f (fpSign f op)

theorem roundRat_fpToRat (f : Fmt) (op : BitVec f.bits) (rounding : FPRounding) :
    roundRat rounding (fpToRat f op) = fpRoundToInt rounding (fpNum f op) (fpDenExp f op) := by
  rw [fpToRat_eq_num_div, roundRat_div]

/-- There is at most one such datum, the one the real-number steps find. -/
theorem fpRoundNonzero_eq {f : Fmt} {op x : BitVec f.bits} {rounding : FPRounding} (h : IsRounded f op rounding x) :
    fpRoundNonzero f op rounding = x := by
  rw [fpRoundNonzero, ← roundRat_fpToRat]
  split_ifs with hzero
  · exact (h.zero hzero).symm
  · exact fpEncodeInt_eq h.value hzero

section Ranges

variable {f : Fmt} {op : BitVec f.bits} (rounding : FPRounding)

/-! ## Operands of magnitude at least `2^F` -/

/-- An operand that is an integer is its own rounding. -/
theorem isRounded_self {n : ℤ} (hfin : IsFinite f op) (hne : fpToRat f op ≠ 0) (hn : fpToRat f op = n) :
    IsRounded f op rounding op := by
  have hround : roundRat rounding (fpToRat f op) = n := by rw [hn, roundRat_intCast]
  refine ⟨hfin, by rw [hround, hn], fun hzero => absurd ?_ hne⟩
  rw [hn, ← hround, hzero, Int.cast_zero]

theorem fpDenExp_of_large (h : f.bias + f.fracBits ≤ fpExp f op) : fpDenExp f op = 0 := by
  have := bias_pos f
  rw [fpDenExp, fpEffExp_of_ne_zero (by omega)]
  omega

theorem fpToRat_of_large (h : f.bias + f.fracBits ≤ fpExp f op) : fpToRat f op = (fpNum f op : ℤ) := by
  rw [fpToRat_eq_num_div, fpDenExp_of_large h, pow_zero, div_one]

/-! ## Operands below that -/

theorem fpEffExp_le_of_not_large (h : fpExp f op < f.bias + f.fracBits) : fpEffExp f op ≤ f.bias + f.fracBits := by
  have := bias_pos f
  rw [fpEffExp]
  split <;> omega

/-- The rounded integer in magnitudes. -/
theorem roundRat_of_not_large (h : fpExp f op < f.bias + f.fracBits) :
    roundRat rounding (fpToRat f op) = signFactor (fpSign f op) *
      ((fpSignificand f op / 2 ^ fpDenExp f op + (roundsAway rounding (fpSign f op)
        (fpSignificand f op / 2 ^ fpDenExp f op) (fpSignificand f op % 2 ^ fpDenExp f op)
        (2 ^ fpDenExp f op)).toNat : ℕ) : ℤ) := by
  rw [roundRat_fpToRat, fpNum_of_fpEffExp_le (fpEffExp_le_of_not_large h), fpRoundToInt_signFactor_mul]

/-- The operand is an integer exactly when its significand leaves no remainder. -/
theorem fpErr_eq_zero_of_not_large (h : fpExp f op < f.bias + f.fracBits) :
    fpErr (fpNum f op) (fpDenExp f op) = 0 ↔ fpSignificand f op % 2 ^ fpDenExp f op = 0 := by
  have hpos : (0 : ℤ) < (2 ^ fpDenExp f op : ℕ) := by positivity
  have hdvd : ((2 ^ fpDenExp f op : ℕ) : ℤ) ∣ fpNum f op ↔ ((2 ^ fpDenExp f op : ℕ) : ℤ) ∣ fpSignificand f op := by
    rw [fpNum_of_fpEffExp_le (fpEffExp_le_of_not_large h), signFactor]
    cases fpSign f op <;> simp
  have hnonneg := Int.emod_nonneg (fpNum f op) hpos.ne'
  rw [fpErr, ← Nat.dvd_iff_mod_eq_zero, ← Int.natCast_dvd_natCast, ← hdvd, Int.dvd_iff_emod_eq_zero]
  omega

/-! ## Operands of magnitude below 1 -/

theorem fpSignificand_ne_zero (h : ¬ (fpExp f op = 0 ∧ fpFrac f op = 0)) : fpSignificand f op ≠ 0 := by
  have := Nat.two_pow_pos f.fracBits
  rw [fpSignificand]
  split <;> omega

/-- The magnitude against 1/2, in fields and in significands. -/
theorem half_iff_of_small (h : fpExp f op < f.bias) :
    ((fpExp f op = f.bias - 1 ∧ fpFrac f op = 0) ↔ 2 * fpSignificand f op = 2 ^ fpDenExp f op) ∧
    ((fpExp f op = f.bias - 1 ∧ fpFrac f op ≠ 0) ↔ 2 ^ fpDenExp f op < 2 * fpSignificand f op) := by
  have hbias : 2 ≤ f.bias := by cases f <;> decide
  by_cases he : fpExp f op = f.bias - 1
  · have hne : fpExp f op ≠ 0 := by omega
    have hden : fpDenExp f op = f.fracBits + 1 := by
      rw [fpDenExp, fpEffExp_of_ne_zero hne]
      omega
    rw [hden, fpSignificand_of_ne_zero hne, pow_succ]
    omega
  · have hlt : 2 * fpSignificand f op < 2 ^ fpDenExp f op := by
      by_cases hzero : fpExp f op = 0
      · rw [fpSignificand, fpDenExp, fpEffExp, if_pos hzero, if_pos hzero]
        calc 2 * fpFrac f op < 2 ^ (f.fracBits + 1) := by have := fpFrac_lt f op; rw [pow_succ]; omega
          _ ≤ 2 ^ (f.bias + f.fracBits - 1) := Nat.pow_le_pow_right (by omega) (by omega)
      · rw [fpDenExp, fpEffExp_of_ne_zero hzero]
        calc 2 * fpSignificand f op < 2 ^ (f.fracBits + 2) := by have := fpSignificand_lt f op; rw [pow_succ]; omega
          _ ≤ 2 ^ (f.bias + f.fracBits - fpExp f op) := Nat.pow_le_pow_right (by omega) (by omega)
    omega

theorem fpBitsIncSmall_eq (h : fpExp f op < f.bias) (hne : ¬ (fpExp f op = 0 ∧ fpFrac f op = 0)) :
    fpBitsIncSmall rounding (fpSign f op) (decide (fpExp f op = f.bias - 1 ∧ fpFrac f op = 0))
      (decide (fpExp f op = f.bias - 1 ∧ fpFrac f op ≠ 0)) =
    roundsAway rounding (fpSign f op) 0 (fpSignificand f op) (2 ^ fpDenExp f op) := by
  obtain ⟨hhalf, hgt⟩ := half_iff_of_small h
  have hsig := fpSignificand_ne_zero hne
  simp only [hhalf, hgt]
  cases rounding with
  | tieEven => simp [fpBitsIncSmall, roundsAway]
  | tieAway =>
    rw [fpBitsIncSmall, roundsAway, ← Bool.decide_or, decide_eq_decide]
    omega
  | negInf => simp [fpBitsIncSmall, roundsAway, hsig]
  | posInf => simp [fpBitsIncSmall, roundsAway, hsig]
  | zero => rfl

/-- Below 1 the rounding is 0 or 1 of the operand's sign. -/
theorem isRounded_of_small (h : fpExp f op < f.bias) :
    IsRounded f op rounding
      (if roundsAway rounding (fpSign f op) 0 (fpSignificand f op) (2 ^ fpDenExp f op) then fpOne f (fpSign f op)
        else fpZero f (fpSign f op)) := by
  have hround := roundRat_of_not_large (op := op) rounding (by omega)
  rw [Nat.div_eq_of_lt (fpSignificand_lt_of_lt_bias h), Nat.mod_eq_of_lt (fpSignificand_lt_of_lt_bias h)] at hround
  split_ifs with hinc
  · obtain ⟨hfin, hvalue⟩ := fpToRat_fpOne f (fpSign f op)
    have hone : roundRat rounding (fpToRat f op) = signFactor (fpSign f op) := by simpa [hinc] using hround
    refine ⟨hfin, by rw [hvalue, hone], fun hzero => ?_⟩
    rw [hone, signFactor] at hzero
    split at hzero <;> cases hzero
  · obtain ⟨hfin, hvalue⟩ := fpToRat_fpZero f (fpSign f op)
    have hzero : roundRat rounding (fpToRat f op) = 0 := by simpa [hinc] using hround
    exact ⟨hfin, by rw [hvalue, hzero, Int.cast_zero], fun _ => rfl⟩

/-! ## Operands in between -/

section Between

variable (hlo : f.bias ≤ fpExp f op) (hhi : fpExp f op < f.bias + f.fracBits)
include hlo hhi

theorem fpDenExp_of_between : fpDenExp f op = f.fracBits - (fpExp f op - f.bias) := by
  have := bias_pos f
  rw [fpDenExp, fpEffExp_of_ne_zero (by omega)]
  omega

omit hhi in
theorem fpSignificand_of_between : fpSignificand f op = 2 ^ f.fracBits + fpFrac f op := by
  have := bias_pos f
  exact fpSignificand_of_ne_zero (by omega)

/-- The operand's bits below the binary point are the significand's. -/
theorem toNat_mod_of_between : op.toNat % 2 ^ fpDenExp f op = fpSignificand f op % 2 ^ fpDenExp f op ∧
    fpFrac f op % 2 ^ fpDenExp f op = fpSignificand f op % 2 ^ fpDenExp f op := by
  have hdvd : 2 ^ fpDenExp f op ∣ 2 ^ f.fracBits := by
    rw [fpDenExp_of_between hlo hhi]
    exact pow_dvd_pow 2 (Nat.sub_le _ _)
  have hmod : fpFrac f op % 2 ^ fpDenExp f op = fpSignificand f op % 2 ^ fpDenExp f op := by
    rw [fpSignificand_of_between hlo, Nat.add_mod, Nat.mod_eq_zero_of_dvd hdvd, zero_add, Nat.mod_mod]
  exact ⟨by rw [← hmod, fpFrac, Nat.mod_mod_of_dvd _ hdvd], hmod⟩

/-- `qodd` of R99 says that the integer part of the magnitude is odd. -/
theorem qodd_of_between :
    (if fpDenExp f op = f.fracBits then true else op.getLsbD (fpDenExp f op)) =
      decide (fpSignificand f op / 2 ^ fpDenExp f op % 2 = 1) := by
  have hk := fpDenExp_of_between hlo hhi
  rw [fpSignificand_of_between hlo]
  split_ifs with hF
  · rw [hF, Nat.add_div_left _ (by positivity), Nat.div_eq_of_lt (fpFrac_lt f op)]
    rfl
  · have hlt : fpDenExp f op < f.fracBits := by omega
    have hbit : op.toNat.testBit (fpDenExp f op) = (2 ^ f.fracBits + fpFrac f op).testBit (fpDenExp f op) := by
      rw [Nat.testBit_two_pow_add_gt hlt, fpFrac, Nat.testBit_mod_two_pow, decide_eq_true hlt, Bool.true_and]
    rw [BitVec.getLsbD, hbit, Nat.testBit_eq_decide_div_mod_eq]

theorem fpBitsIncLarge_eq :
    fpBitsIncLarge rounding (fpSign f op) (op.toNat % 2 ^ fpDenExp f op) (2 ^ (fpDenExp f op - 1))
      (if fpDenExp f op = f.fracBits then true else op.getLsbD (fpDenExp f op)) =
    roundsAway rounding (fpSign f op) (fpSignificand f op / 2 ^ fpDenExp f op)
      (fpSignificand f op % 2 ^ fpDenExp f op) (2 ^ fpDenExp f op) := by
  have hk := fpDenExp_of_between hlo hhi
  have hwhole : 2 ^ fpDenExp f op = 2 * 2 ^ (fpDenExp f op - 1) := by
    rw [← pow_succ', Nat.sub_add_cancel (by omega)]
  rw [qodd_of_between hlo hhi, (toNat_mod_of_between hlo hhi).1]
  generalize fpSignificand f op / 2 ^ fpDenExp f op = q
  generalize fpSignificand f op % 2 ^ fpDenExp f op = low
  rw [hwhole]
  cases rounding with
  | tieEven =>
    rw [Bool.eq_iff_iff]
    simp [fpBitsIncLarge, roundsAway]
  | tieAway => simp [fpBitsIncLarge, roundsAway]
  | negInf => rfl
  | posInf => rfl
  | zero => rfl

theorem fpSignificand_div_ne_zero : fpSignificand f op / 2 ^ fpDenExp f op ≠ 0 := by
  have hk := fpDenExp_of_between hlo hhi
  have hle : 2 ^ fpDenExp f op ≤ 2 ^ f.fracBits := Nat.pow_le_pow_right (by omega) (by omega)
  rw [fpSignificand_of_between hlo]
  exact (Nat.div_pos (by omega) (by positivity)).ne'

/-- Even when it is rounded away from zero the significand does not pass `2^(F+1)`. -/
theorem fpSignificand_div_succ_le :
    (fpSignificand f op / 2 ^ fpDenExp f op + 1) * 2 ^ fpDenExp f op ≤ 2 ^ f.fracBits + 2 ^ f.fracBits := by
  have hk := fpDenExp_of_between hlo hhi
  have hlt := fpSignificand_lt f op
  have hsplit : 2 ^ (f.fracBits + 1) = 2 ^ (f.fracBits + 1 - fpDenExp f op) * 2 ^ fpDenExp f op := by
    rw [← pow_add, Nat.sub_add_cancel (by omega)]
  rw [← Nat.mul_two, ← pow_succ, hsplit]
  rw [hsplit] at hlt
  exact Nat.mul_le_mul_right _ ((Nat.div_lt_iff_lt_mul (by positivity)).mpr hlt)

/-- The bits with the ones below the binary point cleared, and perhaps 1 added above it, are a datum of the operand's
exponent whose fraction may carry. -/
theorem exists_frac_of_between (inc : Bool) : ∃ frac, frac ≤ 2 ^ f.fracBits ∧
    2 ^ f.fracBits + frac = (fpSignificand f op / 2 ^ fpDenExp f op + inc.toNat) * 2 ^ fpDenExp f op ∧
    BitVec.ofNat f.bits (op.toNat - op.toNat % 2 ^ fpDenExp f op + if inc then 2 ^ fpDenExp f op else 0) =
      fpPack f (fpSign f op) (fpExp f op) frac := by
  obtain ⟨hlow, hfraclow⟩ := toNat_mod_of_between hlo hhi
  have hsig := fpSignificand_of_between hlo
  have hdiv := Nat.div_add_mod' (fpSignificand f op) (2 ^ fpDenExp f op)
  have hmodle := Nat.mod_le (fpFrac f op) (2 ^ fpDenExp f op)
  have hbound := fpSignificand_div_succ_le hlo hhi
  have hinc : (if inc then 2 ^ fpDenExp f op else 0) = inc.toNat * 2 ^ fpDenExp f op := by cases inc <;> simp
  have hinc_le : inc.toNat * 2 ^ fpDenExp f op ≤ 1 * 2 ^ fpDenExp f op := Nat.mul_le_mul_right _ inc.toNat_le
  rw [Nat.add_mul] at hbound
  refine ⟨fpFrac f op - fpFrac f op % 2 ^ fpDenExp f op + inc.toNat * 2 ^ fpDenExp f op, ?_, ?_, ?_⟩
  · omega
  · rw [Nat.add_mul]
    omega
  · have hfields := toNat_eq_fields f op
    rw [fpPack_eq, hinc]
    congr 1
    omega

/-- Between 1 and `2^F` the rounding clears the bits below the binary point and adds 1 above it if it goes away from
zero. -/
theorem isRounded_of_between :
    IsRounded f op rounding (BitVec.ofNat f.bits (op.toNat - op.toNat % 2 ^ fpDenExp f op +
      if roundsAway rounding (fpSign f op) (fpSignificand f op / 2 ^ fpDenExp f op)
        (fpSignificand f op % 2 ^ fpDenExp f op) (2 ^ fpDenExp f op) then 2 ^ fpDenExp f op else 0)) := by
  have hround := roundRat_of_not_large rounding hhi
  have hq := fpSignificand_div_ne_zero hlo hhi
  have hk := fpDenExp_of_between hlo hhi
  generalize roundsAway rounding (fpSign f op) (fpSignificand f op / 2 ^ fpDenExp f op)
    (fpSignificand f op % 2 ^ fpDenExp f op) (2 ^ fpDenExp f op) = inc at hround ⊢
  obtain ⟨frac, hle, hmag, hdatum⟩ := exists_frac_of_between hlo hhi inc
  generalize fpSignificand f op / 2 ^ fpDenExp f op = q at hround hq hmag
  have hbias := bias_pos f
  have hmax : fpExp f op + 1 < f.expMax := by
    have := fracBits_le_bias f
    rw [expMax_eq]
    omega
  obtain ⟨hfin, hvalue⟩ := fpToRat_fpPack (sign := fpSign f op) (by omega : 0 < fpExp f op) hmax hle
  have hexp : (fpExp f op : ℤ) - ((f.bias + f.fracBits : ℕ) : ℤ) = -(fpDenExp f op : ℤ) := by omega
  rw [hdatum]
  refine ⟨hfin, ?_, fun hzero => ?_⟩
  · rw [hvalue, hround, hexp, hmag, zpow_neg, zpow_natCast]
    push_cast
    field_simp
  · have hsum : signFactor (fpSign f op) ≠ 0 := by
      cases fpSign f op <;> decide
    rw [hround, mul_eq_zero, or_iff_right hsum] at hzero
    omega

end Between

end Ranges

/-! ## The two forms -/

section Forms

variable {f : Fmt} {op : BitVec f.bits} {fpcr : BitVec 64} (rounding : FPRounding) (exact : Bool)
  (h : fpClassify f op fpcr = .nonzero)
include h

/-- At a nonzero operand the first four branches of the bit-level form do not apply. -/
theorem not_special_of_nonzero : fpExp f op ≠ f.expMax ∧ ¬ (fpExp f op = 0 ∧ fpFrac f op = 0) ∧
    ¬ (fpExp f op = 0 ∧ fpFlushes f fpcr = true) := by
  obtain ⟨hfin, hnonzero, hflush⟩ := (fpClassify_eq_nonzero_iff f op fpcr).mp h
  exact ⟨hfin, hnonzero, fun ⟨he, hfl⟩ => hflush ⟨⟨he, fun hf => hnonzero ⟨he, hf⟩⟩, hfl⟩⟩

theorem fpToRat_ne_zero_of_nonzero : fpToRat f op ≠ 0 := by
  obtain ⟨-, hnonzero, -⟩ := not_special_of_nonzero h
  have hsig : (fpSignificand f op : ℚ) ≠ 0 := by exact_mod_cast fpSignificand_ne_zero hnonzero
  rw [← abs_ne_zero, abs_fpToRat]
  positivity

theorem fpRoundIntBitsValue_of_nonzero : fpRoundIntBitsValue f op fpcr rounding =
    if f.bias + f.fracBits ≤ fpExp f op then op
    else if fpExp f op < f.bias then
      if fpBitsIncSmall rounding (fpSign f op) (decide (fpExp f op = f.bias - 1 ∧ fpFrac f op = 0))
        (decide (fpExp f op = f.bias - 1 ∧ fpFrac f op ≠ 0)) then fpOne f (fpSign f op) else fpZero f (fpSign f op)
    else
      BitVec.ofNat f.bits (op.toNat - op.toNat % 2 ^ (f.fracBits - (fpExp f op - f.bias)) +
        if fpBitsIncLarge rounding (fpSign f op) (op.toNat % 2 ^ (f.fracBits - (fpExp f op - f.bias)))
          (2 ^ (f.fracBits - (fpExp f op - f.bias) - 1))
          (if f.fracBits - (fpExp f op - f.bias) = f.fracBits then true
            else op.getLsbD (f.fracBits - (fpExp f op - f.bias)))
        then 2 ^ (f.fracBits - (fpExp f op - f.bias)) else 0) := by
  obtain ⟨hfin, hnonzero, hflush⟩ := not_special_of_nonzero h
  simp only [fpRoundIntBitsValue, hfin, false_and, if_false, hnonzero, hflush]

/-- The bit-level form finds the datum of the rounded integer. -/
theorem isRounded_fpRoundIntBitsValue : IsRounded f op rounding (fpRoundIntBitsValue f op fpcr rounding) := by
  obtain ⟨hfin, hnonzero, -⟩ := not_special_of_nonzero h
  rw [fpRoundIntBitsValue_of_nonzero rounding h]
  by_cases hlarge : f.bias + f.fracBits ≤ fpExp f op
  · rw [if_pos hlarge]
    exact isRounded_self rounding hfin (fpToRat_ne_zero_of_nonzero h) (fpToRat_of_large hlarge)
  · rw [if_neg hlarge]
    by_cases hsmall : fpExp f op < f.bias
    · rw [if_pos hsmall, fpBitsIncSmall_eq rounding hsmall hnonzero]
      exact isRounded_of_small rounding hsmall
    · rw [if_neg hsmall, ← fpDenExp_of_between (not_lt.mp hsmall) (not_le.mp hlarge),
        fpBitsIncLarge_eq rounding (not_lt.mp hsmall) (not_le.mp hlarge)]
      exact isRounded_of_between rounding (not_lt.mp hsmall) (not_le.mp hlarge)

/-- The signals of the bit-level form are those of the operands that are not integers. -/
theorem fpRoundIntBitsFlags_of_nonzero : fpRoundIntBitsFlags f op fpcr exact =
    { inexact := exact && decide (fpErr (fpNum f op) (fpDenExp f op) ≠ 0) } := by
  obtain ⟨hfin, hnonzero, hflush⟩ := not_special_of_nonzero h
  simp only [fpRoundIntBitsFlags, hfin, false_and, if_false, hnonzero, hflush]
  split_ifs with hlarge hsmall
  · simp [fpDenExp_of_large hlarge, fpErr, FPExcSet.none]
  · have hinteger := fpErr_eq_zero_of_not_large (not_le.mp hlarge)
    rw [Nat.mod_eq_of_lt (fpSignificand_lt_of_lt_bias hsmall)] at hinteger
    simp [hinteger, fpSignificand_ne_zero hnonzero]
  · have hinteger := fpErr_eq_zero_of_not_large (not_le.mp hlarge)
    rw [← (toNat_mod_of_between (not_lt.mp hsmall) (not_le.mp hlarge)).1] at hinteger
    rw [← fpDenExp_of_between (not_lt.mp hsmall) (not_le.mp hlarge)]
    simp only [ne_eq, hinteger]

end Forms

/-- Settles O33, by the five kinds of operand. -/
theorem bitLevelFormIsTheRealNumberForm : Obligations.BitLevelFormIsTheRealNumberForm := by
  intro f op fpcr rounding exact
  have hmax := expMax_ne_zero f
  rcases operand_cases f op fpcr with hnan | ⟨he, hf⟩ | ⟨he, hf⟩ | ⟨hd, hflush⟩ | hnonzero
  · obtain ⟨hvalue, hflags⟩ := fpRoundInt_of_NaN fpcr rounding exact hnan
    obtain ⟨he, hf⟩ := hnan
    rw [hvalue, hflags]
    simp [fpRoundIntBitsValue, fpRoundIntBitsFlags, he, hf]
  · obtain ⟨hvalue, hflags⟩ := fpRoundInt_of_infinity fpcr rounding exact he hf
    rw [hvalue, hflags]
    simp [fpRoundIntBitsValue, fpRoundIntBitsFlags, he, hf]
  · obtain ⟨hvalue, hflags⟩ := fpRoundInt_of_zero fpcr rounding exact he hf
    rw [hvalue, hflags]
    simp [fpRoundIntBitsValue, fpRoundIntBitsFlags, he, hf, hmax.symm, ← eq_fpZero he hf]
  · obtain ⟨hvalue, hflags⟩ := fpRoundInt_of_flushed fpcr rounding exact hd hflush
    obtain ⟨he, hf⟩ := hd
    rw [hvalue, hflags]
    simp [fpRoundIntBitsValue, fpRoundIntBitsFlags, he, hf, hmax.symm, hflush]
  · obtain ⟨hvalue, hflags⟩ := fpRoundInt_of_nonzero fpcr rounding exact hnonzero
    rw [hvalue, hflags, fpRoundNonzero_eq (isRounded_fpRoundIntBitsValue rounding hnonzero),
      fpRoundIntBitsFlags_of_nonzero exact hnonzero]
    exact ⟨rfl, rfl⟩

end Sys2Proof.Proofs
end

section
/-! PROOFS of the family 40_frint_operation: the result of a nonzero operand (O34, O35; R96 to R98), and the sign and
the value of every result (O39; R104 (a), (b)). -/

namespace Sys2Proof.Proofs

open Sys2Proof.Machine Sys2Proof.Safety

/-! ## The result of a nonzero operand -/

section Nonzero

variable {f : Fmt} {op : BitVec f.bits} {fpcr : BitVec 64} (rounding : FPRounding) (exact : Bool)
  (h : fpClassify f op fpcr = .nonzero)
include h

theorem isRounded_fpRoundIntValue : IsRounded f op rounding (fpRoundIntValue f op fpcr rounding exact) := by
  have hbits := isRounded_fpRoundIntBitsValue rounding h
  rw [(fpRoundInt_of_nonzero fpcr rounding exact h).1, fpRoundNonzero_eq hbits]
  exact hbits

/-- An operand that is an integer is returned unchanged, and nothing is signalled. -/
theorem fpRoundInt_of_nonzero_integer {n : ℤ} (hn : fpToRat f op = n) :
    fpRoundIntValue f op fpcr rounding exact = op ∧ fpRoundIntFlags f op fpcr rounding exact = .none := by
  obtain ⟨hvalue, hflags⟩ := fpRoundInt_of_nonzero fpcr rounding exact h
  have hself := isRounded_self rounding (not_special_of_nonzero h).1 (fpToRat_ne_zero_of_nonzero h) hn
  refine ⟨hvalue.trans (fpRoundNonzero_eq hself), ?_⟩
  rw [hflags, (fpErr_num_eq_zero_iff f op).mpr ⟨n, hn⟩]
  simp [FPExcSet.none]

end Nonzero

/-- A nonzero rounding has the sign of the number. -/
theorem roundRat_neg_iff {rounding : FPRounding} {v : ℚ} (h : roundRat rounding v ≠ 0) :
    roundRat rounding v < 0 ↔ v < 0 := by
  constructor
  · intro hneg
    by_contra hv
    have := roundRat_mono rounding (not_lt.mp hv)
    rw [roundRat_zero] at this
    omega
  · intro hv
    have := roundRat_mono rounding hv.le
    rw [roundRat_zero] at this
    omega

theorem IsRounded.sign {f : Fmt} {op x : BitVec f.bits} {rounding : FPRounding} (h : IsRounded f op rounding x)
    (hop : fpToRat f op ≠ 0) : fpSign f x = fpSign f op := by
  by_cases hzero : roundRat rounding (fpToRat f op) = 0
  · rw [h.zero hzero, fpSign_fpZero]
  · have hx : fpToRat f x ≠ 0 := by
      rw [h.value]
      exact_mod_cast hzero
    rw [Bool.eq_iff_iff, fpSign_iff_neg hx, fpSign_iff_neg hop, h.value, ← roundRat_neg_iff hzero, Int.cast_lt_zero]

/-- A denormal is not an integer. -/
theorem not_denormal_of_integer {f : Fmt} {x : BitVec f.bits} {n : ℤ} (hn : fpToRat f x = n) : ¬ IsDenormal f x := by
  intro hd
  obtain ⟨hpos, hlt⟩ := abs_fpToRat_of_denormal hd
  have hhalf := hlt.trans_le (two_zpow_one_sub_bias_le f)
  rw [hn, ← Int.cast_abs] at hpos hhalf
  have hone : (1 : ℚ) ≤ (|n| : ℤ) := by exact_mod_cast hpos
  linarith

/-- Settles O34: the result is the datum of the rounded integer. -/
theorem nonzeroOperandsRoundToTheNamedInteger : Obligations.NonzeroOperandsRoundToTheNamedInteger := by
  intro f op fpcr rounding exact h
  have hrounded := isRounded_fpRoundIntValue rounding exact h
  refine ⟨hrounded.finite, hrounded.value, hrounded.sign (fpToRat_ne_zero_of_nonzero h),
    not_denormal_of_integer hrounded.value, hrounded.zero, ?_, ?_⟩
  · rintro ⟨n, hn⟩
    exact (fpRoundInt_of_nonzero_integer rounding exact h hn).1
  · rw [(fpRoundInt_of_nonzero fpcr rounding false h).2]
    rfl

/-- Settles O35: the model's remainder is 0 exactly for an integer, and the result is the operand exactly then. -/
theorem inexactExactlyWhenNotIntegral : Obligations.InexactExactlyWhenNotIntegral := by
  intro f op fpcr rounding exact h
  have hvalue := (isRounded_fpRoundIntValue rounding exact h).value
  rw [(fpRoundInt_of_nonzero fpcr rounding exact h).2, ← fpErr_num_eq_zero_iff]
  refine ⟨by simp, not_congr ?_, rfl, rfl⟩
  rw [fpErr_num_eq_zero_iff, hvalue]
  constructor
  · rintro ⟨n, hn⟩
    rw [hn, roundRat_intCast]
  · exact fun hr => ⟨_, hr.symm⟩

/-! ## The result of a finite operand -/

/-- The operand is a denormal that is flushed (R95). -/
abbrev Flushed (f : Fmt) (op : BitVec f.bits) (fpcr : BitVec 64) : Prop := IsDenormal f op ∧ fpFlushes f fpcr = true

/-- The result of a finite operand: a zero for a flushed denormal, the rounded integer for every other. -/
theorem fpRoundIntValue_of_finite {f : Fmt} {op : BitVec f.bits} (hfin : IsFinite f op) (fpcr : BitVec 64)
    (rounding : FPRounding) (exact : Bool) : IsFinite f (fpRoundIntValue f op fpcr rounding exact) ∧
      fpSign f (fpRoundIntValue f op fpcr rounding exact) = fpSign f op ∧
      ∃ r : ℤ, fpToRat f (fpRoundIntValue f op fpcr rounding exact) = r ∧
        ((Flushed f op fpcr ∧ r = 0) ∨ (¬ Flushed f op fpcr ∧ r = roundRat rounding (fpToRat f op))) := by
  rcases operand_cases f op fpcr with ⟨he, -⟩ | ⟨he, -⟩ | ⟨he, hf⟩ | hflushed | hnonzero
  · exact absurd he hfin
  · exact absurd he hfin
  · have hzero : fpToRat f op = 0 := fpToRat_of_zero he hf
    rw [(fpRoundInt_of_zero fpcr rounding exact he hf).1]
    refine ⟨hfin, rfl, 0, by rw [hzero, Int.cast_zero], .inr ⟨fun hd => hd.1.2 hf, ?_⟩⟩
    rw [hzero, roundRat_zero]
  · obtain ⟨hzfin, hzero⟩ := fpToRat_fpZero f (fpSign f op)
    rw [(fpRoundInt_of_flushed fpcr rounding exact hflushed.1 hflushed.2).1]
    exact ⟨hzfin, fpSign_fpZero f _, 0, by rw [hzero, Int.cast_zero], .inl ⟨hflushed, rfl⟩⟩
  · have hrounded := isRounded_fpRoundIntValue rounding exact hnonzero
    obtain ⟨-, -, hflush⟩ := (fpClassify_eq_nonzero_iff f op fpcr).mp hnonzero
    exact ⟨hrounded.finite, hrounded.sign (fpToRat_ne_zero_of_nonzero hnonzero), _, hrounded.value, .inr ⟨hflush, rfl⟩⟩

/-- Settles O39: an infinity is returned, and the result of a finite operand is an integer. -/
theorem resultIsIntegralWithTheOperandsSign : Obligations.ResultIsIntegralWithTheOperandsSign := by
  intro f op fpcr rounding exact hnan
  by_cases hfin : IsFinite f op
  · obtain ⟨hfinite, hsign, r, hvalue, -⟩ := fpRoundIntValue_of_finite hfin fpcr rounding exact
    exact ⟨hsign, .inr ⟨hfinite, r, hvalue⟩⟩
  · have he : fpExp f op = f.expMax := not_not.mp hfin
    have hf : fpFrac f op = 0 := by
      by_contra hne
      exact hnan ⟨he, hne⟩
    rw [(fpRoundInt_of_infinity fpcr rounding exact he hf).1]
    exact ⟨rfl, .inl ⟨he, hf⟩⟩

end Sys2Proof.Proofs
end

section
/-! PROOFS of the family 40_frint_operation: rounding twice is rounding once (O40; R104 (c)). A processed NaN is quiet,
and every other result is an infinity or an integer. -/

namespace Sys2Proof.Proofs

open Sys2Proof.Machine Sys2Proof.Safety

/-- A finite integer is returned unchanged and signals nothing, zeros included. -/
theorem fpRoundInt_of_integer {f : Fmt} {x : BitVec f.bits} {n : ℤ} (hfin : IsFinite f x) (hn : fpToRat f x = n)
    (fpcr : BitVec 64) (rounding : FPRounding) (exact : Bool) :
    fpRoundIntValue f x fpcr rounding exact = x ∧ fpRoundIntFlags f x fpcr rounding exact = .none := by
  rcases operand_cases f x fpcr with ⟨he, -⟩ | ⟨he, -⟩ | ⟨he, hf⟩ | ⟨hd, -⟩ | hnonzero
  · exact absurd he hfin
  · exact absurd he hfin
  · exact fpRoundInt_of_zero fpcr rounding exact he hf
  · exact absurd hd (not_denormal_of_integer hn)
  · exact fpRoundInt_of_nonzero_integer rounding exact hnonzero hn

/-- A word with the same bits from `F` on has the same exponent field. -/
theorem fpExp_congr {f : Fmt} {x y : BitVec f.bits} (h : ∀ j, f.fracBits ≤ j → x.getLsbD j = y.getLsbD j) :
    fpExp f x = fpExp f y := by
  refine Nat.eq_of_testBit_eq fun i => ?_
  rw [fpExp, fpExp, Nat.testBit_mod_two_pow, Nat.testBit_mod_two_pow, Nat.testBit_div_two_pow, Nat.testBit_div_two_pow]
  exact congrArg (_ && ·) (h _ (by omega))

/-- A word with a bit below `F` has a fraction. -/
theorem fpFrac_ne_zero {f : Fmt} {x : BitVec f.bits} {j : ℕ} (hj : j < f.fracBits) (hbit : x.getLsbD j = true) :
    fpFrac f x ≠ 0 := by
  intro hzero
  have hfrac : (fpFrac f x).testBit j = x.getLsbD j := by
    rw [fpFrac, Nat.testBit_mod_two_pow, decide_eq_true hj, Bool.true_and, BitVec.getLsbD]
  rw [hzero, Nat.zero_testBit, hbit] at hfrac
  cases hfrac

/-- Bit `F-1` is the highest bit of the fraction. -/
theorem getLsbD_fpDefaultNaN (f : Fmt) (fpcr : BitVec 64) : (fpDefaultNaN f fpcr).getLsbD (f.fracBits - 1) = true := by
  have hF := one_le_fracBits f
  have hlt : 2 ^ (f.fracBits - 1) < 2 ^ f.fracBits := Nat.pow_lt_pow_right (by omega) (by omega)
  have hfrac : (fpFrac f (fpDefaultNaN f fpcr)).testBit (f.fracBits - 1) = true := by
    rw [fpDefaultNaN, fpFrac_fpPack le_rfl hlt, Nat.testBit_two_pow_self]
  rwa [fpFrac, Nat.testBit_mod_two_pow, decide_eq_true (by omega), Bool.true_and] at hfrac

theorem fpExp_fpDefaultNaN (f : Fmt) (fpcr : BitVec 64) : fpExp f (fpDefaultNaN f fpcr) = f.expMax :=
  fpExp_fpPack le_rfl (Nat.pow_lt_pow_right (by omega) (by have := one_le_fracBits f; omega))

/-- A processed NaN is a quiet NaN, and processing it again changes nothing (R100, R101). -/
theorem fpProcessNaN_quiet {f : Fmt} {x : BitVec f.bits} (h : IsNaN f x) (fpcr : BitVec 64) :
    IsNaN f (fpProcessNaN f x fpcr) ∧ (fpProcessNaN f x fpcr).getLsbD (f.fracBits - 1) = true ∧
      fpProcessNaN f (fpProcessNaN f x fpcr) fpcr = fpProcessNaN f x fpcr := by
  have hF : f.fracBits - 1 < f.fracBits := by
    have := one_le_fracBits f
    omega
  cases hDN : fpcrDN fpcr with
  | true =>
    have hprocess : ∀ y, fpProcessNaN f y fpcr = fpDefaultNaN f fpcr := fun y => if_pos hDN
    have hquiet := getLsbD_fpDefaultNaN f fpcr
    rw [hprocess, hprocess]
    exact ⟨⟨fpExp_fpDefaultNaN f fpcr, fpFrac_ne_zero hF hquiet⟩, hquiet, rfl⟩
  | false =>
    have hprocess : ∀ y, fpProcessNaN f y fpcr = y ||| BitVec.twoPow f.bits (f.fracBits - 1) := fun y =>
      if_neg (Bool.eq_false_iff.mp hDN)
    have hquiet : (x ||| BitVec.twoPow f.bits (f.fracBits - 1)).getLsbD (f.fracBits - 1) = true := by
      rw [getLsbD_quieten, decide_eq_true rfl, Bool.true_or]
    have hexp : fpExp f (x ||| BitVec.twoPow f.bits (f.fracBits - 1)) = fpExp f x := fpExp_congr fun j hj => by
      rw [getLsbD_quieten, decide_eq_false (by omega), Bool.false_or]
    rw [hprocess, hprocess, BitVec.or_assoc, BitVec.or_self]
    exact ⟨⟨hexp.trans h.1, fpFrac_ne_zero hF hquiet⟩, hquiet, rfl⟩

/-- Settles O40: a result is a quiet NaN, an infinity or a finite integer. -/
theorem roundingIsIdempotent : Obligations.RoundingIsIdempotent := by
  intro f op fpcr rounding exact
  by_cases hfin : IsFinite f op
  · obtain ⟨hfinite, -, r, hvalue, -⟩ := fpRoundIntValue_of_finite hfin fpcr rounding exact
    exact fpRoundInt_of_integer hfinite hvalue fpcr rounding exact
  · have he : fpExp f op = f.expMax := not_not.mp hfin
    by_cases hf : fpFrac f op = 0
    · have hinf := fpRoundInt_of_infinity fpcr rounding exact he hf
      rwa [hinf.1]
    · obtain ⟨hnan, hquiet, htwice⟩ := fpProcessNaN_quiet ⟨he, hf⟩ fpcr
      obtain ⟨hvalue, hflags⟩ := fpRoundInt_of_NaN fpcr rounding exact hnan
      rw [(fpRoundInt_of_NaN fpcr rounding exact ⟨he, hf⟩).1, hvalue, hflags, hquiet]
      exact ⟨htwice, rfl⟩

end Sys2Proof.Proofs
end

section
/-! PROOFS of the family 40_frint_operation: the order and the error of the rounding (O41, O42; R104 (d), (e)), flushed
denormals included. -/

namespace Sys2Proof.Proofs

open Sys2Proof.Machine Sys2Proof.Safety

/-- Settles O42: the error of the rounding, or the magnitude of a flushed denormal. -/
theorem roundingErrorIsBelowOne : Obligations.RoundingErrorIsBelowOne := by
  intro f op fpcr rounding exact hfin
  obtain ⟨-, -, r, hvalue, ⟨⟨hd, -⟩, rfl⟩ | ⟨-, rfl⟩⟩ := fpRoundIntValue_of_finite hfin fpcr rounding exact
  · have hhalf := (abs_fpToRat_of_denormal hd).2.trans_le (two_zpow_one_sub_bias_le f)
    rw [hvalue, Int.cast_zero, zero_sub, abs_neg]
    exact ⟨by linarith, fun _ => hhalf.le⟩
  · rw [hvalue]
    exact ⟨abs_roundRat_sub_lt_one rounding _, fun hnearest => abs_roundRat_sub_le_half hnearest _⟩

/-- A number that is not a denormal is 0 or has at least the magnitude of the least normal one. -/
theorem abs_fpToRat_of_not_denormal {f : Fmt} {x : BitVec f.bits} (h : ¬ IsDenormal f x) :
    fpToRat f x = 0 ∨ 2 ^ (1 - (f.bias : ℤ)) ≤ |fpToRat f x| := by
  by_cases he : fpExp f x = 0
  · exact .inl (fpToRat_of_zero he (by_contra fun hf => h ⟨he, hf⟩))
  · have hsig : (2 : ℚ) ^ f.fracBits ≤ fpSignificand f x := by
      rw [fpSignificand_of_ne_zero he]
      exact_mod_cast Nat.le_add_right _ _
    have hexp : (2 : ℚ) ^ (1 - ((f.bias + f.fracBits : ℕ) : ℤ)) ≤
        2 ^ ((fpEffExp f x : ℤ) - ((f.bias + f.fracBits : ℕ) : ℤ)) := by
      rw [fpEffExp_of_ne_zero he]
      exact zpow_le_zpow_right₀ (by norm_num) (by omega)
    have hleast : (2 : ℚ) ^ (1 - (f.bias : ℤ)) = 2 ^ f.fracBits * 2 ^ (1 - ((f.bias + f.fracBits : ℕ) : ℤ)) := by
      rw [← zpow_natCast, ← zpow_add₀ (by norm_num)]
      congr 1
      push_cast
      ring
    rw [abs_fpToRat, hleast]
    exact .inr (mul_le_mul hsig hexp (by positivity) (by positivity))

/-- A number that is not a denormal is on the same side of a denormal as of 0. -/
theorem order_of_denormal {f : Fmt} {x y : BitVec f.bits} (hx : IsDenormal f x) (hy : ¬ IsDenormal f y) :
    (fpToRat f x ≤ fpToRat f y → 0 ≤ fpToRat f y) ∧ (fpToRat f y ≤ fpToRat f x → fpToRat f y ≤ 0) := by
  rcases abs_fpToRat_of_not_denormal hy with hzero | hle
  · rw [hzero]
    exact ⟨fun _ => le_rfl, fun _ => le_rfl⟩
  · obtain ⟨hlo, hhi⟩ := abs_lt.mp ((abs_fpToRat_of_denormal hx).2.trans_le hle)
    constructor
    · intro hxy
      by_contra hneg
      rw [abs_of_neg (not_le.mp hneg)] at hlo
      linarith
    · intro hyx
      by_contra hpos
      rw [abs_of_pos (not_le.mp hpos)] at hhi
      linarith

/-- Settles O41: the rounding is monotone, and a flushed denormal goes to 0, which no other number passes. -/
theorem roundingIsMonotone : Obligations.RoundingIsMonotone := by
  intro f a b fpcr rounding exact ha hb hab
  obtain ⟨-, -, ra, hra, hcasea⟩ := fpRoundIntValue_of_finite ha fpcr rounding exact
  obtain ⟨-, -, rb, hrb, hcaseb⟩ := fpRoundIntValue_of_finite hb fpcr rounding exact
  rw [hra, hrb, Int.cast_le]
  rcases hcasea with ⟨⟨hda, hflush⟩, rfl⟩ | ⟨hna, rfl⟩
  · rcases hcaseb with ⟨-, rfl⟩ | ⟨hnb, rfl⟩
    · exact le_rfl
    · have hside := (order_of_denormal hda fun hdb => hnb ⟨hdb, hflush⟩).1 hab
      exact (roundRat_zero rounding).symm.trans_le (roundRat_mono rounding hside)
  · rcases hcaseb with ⟨⟨hdb, hflush⟩, rfl⟩ | ⟨-, rfl⟩
    · have hside := (order_of_denormal hdb fun hda => hna ⟨hda, hflush⟩).2 hab
      exact (roundRat_mono rounding hside).trans_eq (roundRat_zero rounding)
    · exact roundRat_mono rounding hab

end Sys2Proof.Proofs
end

section
/-! PROOFS of the family 41_frint_instructions: an instruction with no active element (O29; the corner cases of R110 to
R123). Neither loop takes an active turn, so the result is the initial one and no exception is signalled. -/

namespace Sys2Proof.Proofs

open Sys2Proof.Machine Sys2Proof.Safety

section Loops

variable {n k count : Nat} {F : FPRoundIntFn} {f : Fmt} {fpcr : BitVec 64} {rounding : FPRounding} {exact : Bool}
  {mask : BitVec k} {operand init : BitVec n} (h : ∀ e < count, activeElement mask e f = false)
include h

theorem roundLoop_of_inactive : roundLoop F f fpcr rounding exact mask operand init count = init := by
  induction count with
  | zero => rfl
  | succ c ih =>
    rw [roundLoop_succ_inactive (h c (Nat.lt_succ_self c))]
    exact ih fun e he => h e (Nat.lt_succ_of_lt he)

theorem flagLoop_of_inactive : flagLoop F f fpcr rounding exact mask operand count = .none := by
  induction count with
  | zero => rfl
  | succ c ih =>
    rw [flagLoop_succ_inactive (h c (Nat.lt_succ_self c))]
    exact ih fun e he => h e (Nat.lt_succ_of_lt he)

end Loops

/-- Where no element is active the governing predicate meets the hypothesis of the two loop lemmas (R84). -/
theorem activeElement_eq_false {f : Fmt} {o : Operands} {s : State} (h : ∀ e, ¬ Active f o s e) :
    ∀ e < elementCount s.cfg.vl f, activeElement (s.readP o.pg) e f = false :=
  fun e he => Bool.eq_false_iff.mpr fun hact => h e ⟨he, hact⟩

/-- The empty set of exceptions leaves `FPSR` alone (R35). -/
theorem accumulateFPSR_none (s : State) : s.accumulateFPSR .none = s := by
  have hfpsr : fpsrAccumulate s.fpsr .none = s.fpsr := BitVec.or_zero
  rw [State.accumulateFPSR, hfpsr]

theorem frintWriteBack_none (d : ZReg) (s : State) (v : BitVec s.cfg.vl) :
    frintWriteBack d s v .none = (s.writeZ d v).advancePc := by
  rw [frintWriteBack, accumulateFPSR_none]

/-- Without an active element the operation completes by writing the initial result back (R83, R86). -/
theorem frintOperation_of_inactive {f : Fmt} {o : Operands} {s : State} (h : ∀ e, ¬ Active f o s e)
    (F : FPRoundIntFn) (rounding : FPRounding) (exact merging : Bool) (w : Word) :
    frintOperation F f rounding exact merging w o s = .next (s.writeZ o.zd (frintInit merging o s)).advancePc := by
  have hnotrap : NoTrap F f rounding exact o s := fun e hact => absurd hact (h e)
  have hresult : frintResult F f rounding exact merging o s = frintInit merging o s :=
    roundLoop_of_inactive (activeElement_eq_false h)
  have hflags : frintFlags F f rounding exact o s = .none := flagLoop_of_inactive (activeElement_eq_false h)
  rw [frintOperation_of_noTrap hnotrap, hresult, hflags, frintWriteBack_none]

/-- Settles O29: the initial result is the old `Z[d]`, which is written back unchanged, or zero. -/
theorem noActiveElementCornerCase : Obligations.NoActiveElementCornerCase := by
  intro i s f hfeature hsize hcheck hinactive
  rw [exec_eq_frint_constants, frint_runs hfeature hsize hcheck, frintOperation_of_inactive hinactive, frintInit]
  cases i.isMerging with
  | true => rw [if_pos rfl, if_pos rfl, State.writeZ_readZ]
  | false => rfl

end Sys2Proof.Proofs
end

section
/-! PROOFS of the family 60_exceptions: which cause an instruction reports (O13), what a fault records (O16, O17), and the
bound on the report of a trapped floating-point exception (O14). -/

namespace Sys2Proof.Proofs

open Sys2Proof.Machine Sys2Proof.Safety

/-! ## The order of the causes (R132) -/

/-- A size other than 00 has a format (R63, R70). -/
theorem sizeFmt_eq_some_of_legal {z : Size} (h : z.legal = true) : ∃ f, sizeFmt z = some f := by
  cases z with
  | size00 => cases h
  | half => exact ⟨_, rfl⟩
  | single => exact ⟨_, rfl⟩
  | double => exact ⟨_, rfl⟩

section Passed

variable {i : Instr} {s : State} {f : Fmt} (hfeature : featureOf i s = true) (hsize : sizeFmt i.operands.size = some f)
include hfeature hsize

/-- Past the decode-time checks the access check comes next (R81, R127). -/
theorem exec_accessTrap {kind : TrapKind} (hcheck : s.cfg.sveCheck = .trap kind) :
    exec i s = .fault (.sveAccessTrap kind s.pc (encode i)) := by
  rw [exec_eq_frint_constants]
  exact frint_accessTrap hfeature hsize hcheck

/-- With every check passed an instruction is the operation block. -/
theorem exec_eq_frintOperation (hcheck : s.cfg.sveCheck = .ok) : exec i s =
    frintOperation fpRoundInt f (roundingOf i s.fpcrValue) (exactOf i) i.isMerging (encode i) i.operands s := by
  rw [exec_eq_frint_constants]
  exact frint_runs hfeature hsize hcheck

/-- With every check passed and no enabled exception signalled an instruction completes. -/
theorem exec_completes (hcheck : s.cfg.sveCheck = .ok)
    (hnotrap : NoTrap fpRoundInt f (roundingOf i s.fpcrValue) (exactOf i) i.operands s) : ∃ t, exec i s = .next t :=
  ⟨_, (exec_eq_frintOperation hfeature hsize hcheck).trans (frintOperation_of_noTrap hnotrap _ _)⟩

/-- With every check passed a signalled enabled exception is taken (R129). -/
theorem exec_traps (hcheck : s.cfg.sveCheck = .ok)
    (htrap : ¬ NoTrap fpRoundInt f (roundingOf i s.fpcrValue) (exactOf i) i.operands s) :
    ∃ set fpsr, exec i s = .fault (.fpTrapped set fpsr s.pc (encode i)) := by
  rw [← frintTraps_isEmpty_iff] at htrap
  exact ⟨_, _, (exec_eq_frintOperation hfeature hsize hcheck).trans (if_neg htrap)⟩

end Passed

/-- Settles O13, one cause after the other. -/
theorem outcomeFollowsThePriorityOrder : Obligations.OutcomeFollowsThePriorityOrder := fun i s =>
  ⟨fun hfeature => (exec_undefined_iff i s _ _).mpr ⟨.inl hfeature, rfl, rfl⟩,
    fun _ hsize => sizeZeroIsUndefinedInEveryClass i s hsize,
    fun _ _ hfeature hsize hcheck => exec_accessTrap hfeature hsize hcheck, fun _ => exec_traps,
    fun _ => exec_completes⟩

/-! ## What a fault records (R125, R126) -/

theorem exec_fault_word {i : Instr} {s : State} {x : Fault} (h : exec i s = .fault x) : x.word = encode i := by
  rw [exec_eq_frint_constants] at h
  obtain ⟨-, rfl⟩ | ⟨kind, -, rfl⟩ | ⟨f, -, -, rfl⟩ := frint_fault h
  · rfl
  · rfl
  · rfl

/-- Settles O16: each of the three faults is raised with the instruction's own address and word. -/
theorem faultsRecordTheInstructionAndNothingIsRefused : Obligations.FaultsRecordTheInstructionAndNothingIsRefused :=
  fun i s => ⟨fun _ hx => ⟨exec_fault_pc hx, exec_fault_word hx⟩, exec_not_refused i s⟩

/-- Settles O17: the classes are the rows of the two tables, the return address is the recorded one. -/
theorem syndromeClassesOfFaults : Obligations.SyndromeClassesOfFaults :=
  ⟨fun _ _ _ _ _ => ⟨rfl, rfl, rfl, rfl, rfl, rfl, rfl⟩, fun _ _ _ hx => exec_fault_pc hx⟩

/-! ## The report of a trapped floating-point exception (R129) -/

theorem inter_comm (a b : FPExcSet) : a.inter b = b.inter a := by
  simp only [FPExcSet.inter, Bool.and_comm]

theorem inter_left_comm (a b c : FPExcSet) : a.inter (b.inter c) = b.inter (a.inter c) := by
  simp only [FPExcSet.inter, Bool.and_left_comm]

/-- The instruction signals none of a set of exceptions exactly when no active element does (R105). -/
theorem frintFlags_inter_eq_none_iff (F : FPRoundIntFn) (f : Fmt) (rounding : FPRounding) (exact : Bool)
    (o : Operands) (s : State) (b : FPExcSet) : (frintFlags F f rounding exact o s).inter b = .none ↔
      ∀ e, Active f o s e → (F.flags f (element f (s.readZ o.zn) e) s.fpcrValue rounding exact).inter b = .none := by
  rw [inter_eq_none_iff, frintFlags_member_iff isMember_invalidOp, frintFlags_member_iff isMember_inexact,
    frintFlags_member_iff isMember_inputDenorm]
  simp only [inter_eq_none_iff, SomeActive, forall_exists_index, and_imp, imp_and, forall_and]

/-- A trapped floating-point exception reports a free set and free flags, each brought within its bound (R129, log 11). -/
theorem exec_fpTrapped_report {i : Instr} {s : State} {f : Fmt} {set : FPExcSet} {fpsr : BitVec 64} {pc : Addr}
    {w : Word} (hsize : sizeFmt i.operands.size = some f) (h : exec i s = .fault (.fpTrapped set fpsr pc w)) :
    (frintTraps fpRoundInt f (roundingOf i s.fpcrValue) (exactOf i) i.operands s).isEmpty = false ∧
      (∃ free, set = trapReport free (frintTraps fpRoundInt f (roundingOf i s.fpcrValue) (exactOf i) i.operands s)) ∧
      ∃ a, fpsr = fpsrAccumulate s.fpsr a := by
  rw [exec_eq_frint_constants] at h
  obtain ⟨-, hx⟩ | ⟨kind, -, hx⟩ | ⟨f', hsize', htraps, hx⟩ := frint_fault h
  · cases hx
  · cases hx
  · obtain rfl : f' = f := Option.some.inj (hsize'.symm.trans hsize)
    cases hx
    exact ⟨htraps, ⟨_, rfl⟩, _, rfl⟩

/-- A set that meets the instruction's enabled exceptions meets those of an active element. -/
theorem active_signals_of_report {F : FPRoundIntFn} {f : Fmt} {rounding : FPRounding} {exact : Bool} {o : Operands}
    {s : State} {set : FPExcSet} (h : (set.inter (frintTraps F f rounding exact o s)).isEmpty = false) :
    ∃ e, Active f o s e ∧ ((set.inter (enabledTraps s.fpcrValue)).inter
      (F.flags f (element f (s.readZ o.zn) e) s.fpcrValue rounding exact)).isEmpty = false := by
  rw [frintTraps, inter_left_comm] at h
  by_contra hnone
  have hempty : ∀ e, Active f o s e → (F.flags f (element f (s.readZ o.zn) e) s.fpcrValue rounding exact).inter
      (set.inter (enabledTraps s.fpcrValue)) = .none := by
    intro e hact
    rw [← isEmpty_eq_true_iff, inter_comm, ← Bool.not_eq_false]
    exact fun hsignals => hnone ⟨e, hact, hsignals⟩
  rw [(frintFlags_inter_eq_none_iff F f rounding exact o s _).mpr hempty] at h
  cases h

/-- Settles O14: whatever the free set, the report meets the enabled exceptions that are signalled; whatever the free flags,
they are accumulated into `FPSR`. -/
theorem trapReportIsWithinItsBound : Obligations.TrapReportIsWithinItsBound := by
  intro i s f set fpsr pc w hsize h
  obtain ⟨htraps, ⟨free, rfl⟩, a, rfl⟩ := exec_fpTrapped_report hsize h
  refine ⟨active_signals_of_report (trapReport_holds_enabled free _ htraps), ?_, fpsrAccumulate_frame s.fpsr a⟩
  rw [BitVec.and_comm]
  exact fpsrAccumulate_keeps s.fpsr a

end Sys2Proof.Proofs
end

section
/-! PROOFS of the family 60_exceptions: a text of the group ends normally (O49). Each step at a word of the text completes
and moves on to the next word, so the run reaches the end of the text. -/

namespace Sys2Proof.Proofs

open Sys2Proof.Machine Sys2Proof.Safety

/-- A launch state is at the first word of its text, or at the end of an empty one (R145). -/
theorem runInv_of_launch {s : State} (h : Launch s) : RunInv s := by
  refine ⟨h.text, ⟨0, Nat.zero_le _, h.pc⟩, ?_, h.vl, h.reserved⟩
  obtain ⟨-, -, halign, -⟩ := (textOk_iff s).mp h.text
  rw [h.pc, BitVec.toNat_ofNat]
  omega

/-- A state of a run in which no instruction of the text can fault: every feature is there, the access check passes, no
floating-point exception traps, and every word of the text is a well-formed instruction of the group. -/
structure FaultFree (s : State) : Prop where
  inv : RunInv s
  merging : s.mergingFeature = true
  zeroing : s.zeroingFeature = true
  check : s.cfg.sveCheck = .ok
  support : s.cfg.fpTrapSupport = false
  words : ∀ k, k < s.len → ∃ i : Instr, i.wf = true ∧ WordAt s.mem (s.entry + 4 * k) (encode i)

theorem FaultFree.feature {s : State} (h : FaultFree s) (i : Instr) : featureOf i s = true := by
  cases hi : i.isMerging with
  | true => simp [featureOf, hi, h.merging]
  | false => simp [featureOf, hi, h.zeroing]

/-- Where no exception is enabled none traps (R102, R129). -/
theorem noTrap_of_no_support {s : State} (h : s.cfg.fpTrapSupport = false) (F : FPRoundIntFn) (f : Fmt)
    (rounding : FPRounding) (exact : Bool) (o : Operands) : NoTrap F f rounding exact o s := by
  intro e _
  rw [enabledTraps_eq_none (fpcrValue_and_trapBits h), ← isEmpty_eq_true_iff]
  exact inter_none_isEmpty _

theorem FaultFree.exec_completes {s : State} (h : FaultFree s) {i : Instr} (hwf : i.wf = true) :
    ∃ t, exec i s = .next t := by
  obtain ⟨f, hsize⟩ := sizeFmt_eq_some_of_legal hwf
  exact Proofs.exec_completes (h.feature i) hsize h.check (noTrap_of_no_support h.support _ _ _ _ _)

/-- `pc` at a word of the text is that word's address: the text does not wrap (log 30). -/
theorem toNat_pc_of_lt_len {s : State} (h : textOk s = true) {k : Nat} (hk : k < s.len)
    (hpc : s.pc = BitVec.ofNat 64 (s.entry + 4 * k)) : s.pc.toNat = s.entry + 4 * k := by
  have hlen := four_mul_len h
  have hbound := entry_add_length_le h (by omega)
  rw [hpc, BitVec.toNat_ofNat, Nat.mod_eq_of_lt (by omega)]

/-- The step at a word of such a text completes. -/
theorem FaultFree.step_completes {s : State} (h : FaultFree s) {k : Nat} (hk : k < s.len)
    (hpc : s.pc = BitVec.ofNat 64 (s.entry + 4 * k)) : ∃ t, step s = .next t := by
  obtain ⟨i, hwf, hword⟩ := h.words k hk
  rw [← toNat_pc_of_lt_len h.inv.text hk hpc] at hword
  rw [stepRunsTheDecodedInstruction s (encode i) i h.inv.aligned hword (decodeOfEncodeIsTheInstruction i)]
  exact h.exec_completes hwf

/-- A step leaves the configuration and the text alone and moves on to the next word. -/
theorem FaultFree.of_step {s t : State} (h : FaultFree s) {k : Nat} (hk : k < s.len)
    (hpc : s.pc = BitVec.ofNat 64 (s.entry + 4 * k)) (hstep : step s = .next t) :
    FaultFree t ∧ t.len = s.len ∧ t.pc = BitVec.ofNat 64 (t.entry + 4 * (k + 1)) := by
  have hinv := stepKeepsTheInvariant s t h.inv hstep
  obtain ⟨-, d, v, a, rfl⟩ := step_next_writeBack hstep
  have hne : 0 < s.mem.length := by
    have := four_mul_len h.inv.text
    omega
  have hentry : (frintWriteBack d s v a).entry = s.entry := entry_eq_of_mem_eq (frintWriteBack_mem d s v a) hne
  refine ⟨⟨hinv, h.merging, h.zeroing, h.check, h.support, ?_⟩, rfl, ?_⟩
  · rw [hentry]
    exact h.words
  · rw [hentry, frintWriteBack_pc, hpc, ← BitVec.ofNat_add]
    congr 1

/-- A run whose first step answers a next state goes on from there. -/
theorem run_succ_of_step {M : Host.Core} {k : Nat} {s u : M.State} (h : M.step s = .next u) :
    M.run (k + 1) s = M.run k u := by
  rw [Host.Core.run, h]

/-- A run that ends normally after a step ends normally from before it. -/
theorem endsNormally_of_step {s t : State} (hstep : step s = .next t) (h : EndsNormally t) : EndsNormally s := by
  obtain ⟨k, u, hrun, hfinal⟩ := h
  exact ⟨k + 1, u, (run_succ_of_step (M := Sys2Proof.core) hstep).trans hrun, hfinal⟩

/-- With `n` words still to run the run ends normally. -/
theorem FaultFree.endsNormally {s : State} (h : FaultFree s) {k n : Nat} (hlen : k + n = s.len)
    (hpc : s.pc = BitVec.ofNat 64 (s.entry + 4 * k)) : EndsNormally s := by
  induction n generalizing s k with
  | zero =>
    rw [Nat.add_zero] at hlen
    exact ⟨0, s, rfl, (isFinal_iff s).mpr (hlen ▸ hpc)⟩
  | succ n ih =>
    have hk : k < s.len := by omega
    obtain ⟨t, hstep⟩ := h.step_completes hk hpc
    obtain ⟨ht, htlen, htpc⟩ := h.of_step hk hpc hstep
    exact endsNormally_of_step hstep (ih ht (by omega) htpc)

/-- Settles O49: a launch state has the whole text still to run. -/
theorem textsOfTheGroupEndNormally : Obligations.TextsOfTheGroupEndNormally := by
  intro s hlaunch hmerging hzeroing hcheck hsupport hwords
  have h : FaultFree s := ⟨runInv_of_launch hlaunch, hmerging, hzeroing, hcheck, hsupport, hwords⟩
  exact h.endsNormally (Nat.zero_add s.len) hlaunch.pc

end Sys2Proof.Proofs
end

section
/-! PROOFS of the family 70_reset_and_hazards: the launch states meet the invariant (O46), and every run ends within the
length of its text (O48). Each completed step moves on by one word, and none is taken past the end of the text. -/

namespace Sys2Proof.Proofs

open Sys2Proof.Machine Sys2Proof.Safety

/-- Settles O46: a launch state is at the first word of its text, or at the end of an empty one. -/
theorem launchStatesMeetTheInvariant : Obligations.LaunchStatesMeetTheInvariant := fun _ => runInv_of_launch

/-- A state of a run with `k` words of its text behind it; with all of them behind it, it is at the end of the text. -/
structure AtWord (s : State) (k : Nat) : Prop where
  inv : RunInv s
  le : k ≤ s.len
  pc : s.pc = BitVec.ofNat 64 (s.entry + 4 * k)

theorem AtWord.of_launch {s : State} (h : Launch s) : AtWord s 0 := ⟨runInv_of_launch h, Nat.zero_le _, h.pc⟩

/-- A step that answers a next state is not taken at the end of the text, since nothing is fetched there. -/
theorem AtWord.lt_len_of_step {s t : State} {k : Nat} (h : AtWord s k) (hstep : step s = .next t) : k < s.len := by
  refine Nat.lt_of_le_of_ne h.le fun hend => ?_
  have hfin : s.isFinal = true := (isFinal_iff s).mpr (hend ▸ h.pc)
  exact (step_next_writeBack hstep).1 (fetch_eq_none_of_isFinal h.inv hfin)

/-- A step that answers a next state moves on by one word and leaves the text alone. -/
theorem AtWord.of_step {s t : State} {k : Nat} (h : AtWord s k) (hstep : step s = .next t) :
    AtWord t (k + 1) ∧ t.len = s.len := by
  have hk := h.lt_len_of_step hstep
  have hinv := stepKeepsTheInvariant s t h.inv hstep
  obtain ⟨-, d, v, a, rfl⟩ := step_next_writeBack hstep
  have hne : 0 < s.mem.length := by
    have := four_mul_len h.inv.text
    omega
  refine ⟨⟨hinv, hk, ?_⟩, rfl⟩
  rw [entry_eq_of_mem_eq (frintWriteBack_mem d s v a) hne, frintWriteBack_pc, h.pc, ← BitVec.ofNat_add]
  congr 1

/-- A run of `n` completed steps moves on by `n` words, so it has no more steps than words are left. -/
theorem AtWord.of_run {s t : State} {k n : Nat} (h : AtWord s k) (hrun : Host.Core.run Sys2Proof.core n s = .next t) :
    AtWord t (k + n) ∧ t.len = s.len := by
  induction n generalizing s k with
  | zero =>
    cases hrun
    exact ⟨h, rfl⟩
  | succ n ih =>
    obtain ⟨u, hstep, hrest⟩ := run_succ_next (M := Sys2Proof.core) hrun
    obtain ⟨hu, hulen⟩ := h.of_step hstep
    obtain ⟨ht, htlen⟩ := ih hu hrest
    rw [Nat.add_right_comm, Nat.add_assoc] at ht
    exact ⟨ht, htlen.trans hulen⟩

/-- With the whole text behind it a state is final. -/
theorem AtWord.isFinal {s : State} (h : AtWord s s.len) : s.isFinal = true := (isFinal_iff s).mpr h.pc

/-- Settles O48: a run of `k` steps from a launch state has `k` words of its text behind it, all of them for `k` the length
of the text, and never more than all. -/
theorem runsEndWithinTheTextLength : Obligations.RunsEndWithinTheTextLength := by
  intro s hlaunch
  have hrun {k : Nat} {t : State} (h : Host.Core.run Sys2Proof.core k s = .next t) : AtWord t k ∧ t.len = s.len := by
    simpa using (AtWord.of_launch hlaunch).of_run h
  constructor
  · intro t h
    obtain ⟨ht, hlen⟩ := hrun h
    exact (hlen ▸ ht).isFinal
  · intro k t hk h
    obtain ⟨ht, hlen⟩ := hrun h
    exact absurd ht.le (by omega)

end Sys2Proof.Proofs
end

section
/-! PROOFS of the family other: the worked encodings (O7). A word that encodes an instruction decodes to it (O1), so each
example word need only be the encoding of the instruction in its assembly. -/

namespace Sys2Proof.Proofs

open Sys2Proof.Machine Sys2Proof.Safety

/-- The word of an instruction decodes to that instruction (O1). -/
theorem decode_eq_ok_of_encode_eq {w : Word} {i : Instr} (h : encode i = w) : decode w = .ok i :=
  h ▸ decodeOfEncodeIsTheInstruction i

/-- Settles O7: each of the words E1 to E14 is the encoding of its instruction. -/
theorem exampleWordsDecode : Obligations.ExampleWordsDecode := by
  unfold Obligations.ExampleWordsDecode
  and_intros <;> exact decode_eq_ok_of_encode_eq (by decide)

end Sys2Proof.Proofs
end
